-- ==== Sys2Proof/Word.lean ====
section
/-! DEFINITION. The words of the machine and the small operand types its commands name. -/

namespace Sys2Proof

/-- A register or data word: W = 256 bits (00_scope R6, 10_state R14). -/
abbrev Word := BitVec 256

/-- A command word: 32 bits (30_encoding R57). -/
abbrev CmdWord := BitVec 32

/-- One byte lane of a data word (20_memory R44). -/
abbrev Byte := BitVec 8

/-- The index of a field register, `f0` .. `f7`: NREG = 8 (10_state R14, 20_memory R51). -/
abbrev Reg := Fin 8

/-- The field a command works in: the F bit of its word (30_encoding R58). -/
inductive PrimeField where
  /-- F = 0: the general 256-bit field, modulus P_GEN. -/
  | gen
  /-- F = 1: the 252-bit STARK field, modulus P_STARK. -/
  | stark
  deriving DecidableEq, Repr

/-- The byte order of a data transfer: the ORD bit of FLD and FST (30_encoding R63). -/
inductive ByteOrder where
  /-- ORD = 0: least significant byte first. -/
  | le
  /-- ORD = 1: most significant byte first. -/
  | be
  deriving DecidableEq, Repr

/-- The constant index k of FCONST (10_state R29, 30_encoding R64). -/
inductive ConstIdx where
  /-- k = 0: the additive identity. -/
  | zero
  /-- k = 1: the multiplicative identity, R mod P. -/
  | one
  /-- k = 2: the conversion constant, R^2 mod P. -/
  | r2
  /-- k = 3: the modulus P itself. -/
  | modulus
  deriving DecidableEq, Repr

end Sys2Proof
end

