-- ==== Sys2Proof/Machine/Modular.lean ====
section
/-! DEFINITION. Modular exponentiation on natural numbers: the one arithmetic primitive that Config's primality proofs,
the modular inverse and the Montgomery constants share. -/

namespace Sys2Proof.Machine

/-- `powMod m n b e` is b^e mod m for every exponent below 2^n: square and multiply over n exponent bits
(43_inverse_div R103 (1) names the chain). -/
def powMod (m : Nat) : Nat → Nat → Nat → Nat
  | 0, _, _ => 1 % m
  | n + 1, b, e =>
    let r := powMod m n (b * b % m) (e / 2)
    if e % 2 = 1 then b * r % m else r

/-- What `powMod` computes, for every exponent its bit count covers. -/
theorem powMod_eq (m : Nat) : ∀ n b e, e < 2 ^ n → powMod m n b e = b ^ e % m := by
  intro n
  induction n with
  | zero =>
    intro b e h
    have he : e = 0 := by simpa using h
    simp [powMod, he]
  | succ n ih =>
    intro b e h
    have hhalf : e / 2 < 2 ^ n := by rw [pow_succ] at h; omega
    have hsq : (b * b % m) ^ (e / 2) % m = b ^ (2 * (e / 2)) % m := by
      rw [← Nat.pow_mod, ← pow_two, ← pow_mul]
    simp only [powMod, ih _ _ hhalf, hsq]
    split
    · rw [Nat.mul_mod, Nat.mod_mod, ← Nat.mul_mod, ← pow_succ']
      congr 2; omega
    · congr 2; omega

end Sys2Proof.Machine
end

