-- ==== Sys2Proof/Primes.lean ====
section
/-! DEFINITION. The primality of the two numbers that Config's types need: P_STARK, and one admissible general prime,
which shows only that the type of admissible general primes is inhabited. -/

namespace Sys2Proof

/-- P_STARK = 2^251 + 17·2^192 + 1 (00_scope R6; from general knowledge by the spec's own word, 93 G1). -/
abbrev starkPrime : Nat := 0x0800000000000011000000000000000000000000000000000000000000000001

/-- 207·2^248 + 1: a prime between 2^255 and 2^256. It is NOT P_GEN; it only shows that a P_GEN can exist. -/
abbrev admissiblePrime : Nat := 0xcf00000000000000000000000000000000000000000000000000000000000001

theorem pow_eq_one_of_powMod {p a e : Nat} (he : e < 2 ^ 256) (h : Machine.powMod p 256 a e = 1 % p) :
    (a : ZMod p) ^ e = 1 := by
  rw [Machine.powMod_eq p 256 a e he] at h
  have : ((a ^ e : Nat) : ZMod p) = ((1 : Nat) : ZMod p) := (ZMod.natCast_eq_natCast_iff' _ _ _).2 h
  simpa using this

theorem pow_ne_one_of_powMod {p a e : Nat} (he : e < 2 ^ 256) (h : Machine.powMod p 256 a e ≠ 1 % p) :
    (a : ZMod p) ^ e ≠ 1 := by
  intro hc
  rw [Machine.powMod_eq p 256 a e he] at h
  exact h ((ZMod.natCast_eq_natCast_iff' _ _ _).1 (by simpa using hc))

/-- Every prime factor of a product is a prime factor of one of the two. -/
theorem prime_dvd_pow_mul {q b k m : Nat} (hq : q.Prime) (hb : b.Prime) (h : q ∣ b ^ k * m) : q = b ∨ q ∣ m :=
  (hq.dvd_mul.1 h).imp (fun h => (Nat.prime_dvd_prime_iff_eq hq hb).1 (hq.dvd_of_dvd_pow h)) id

theorem starkPrime_factors {q : Nat} (hq : q.Prime) (h : q ∣ starkPrime - 1) :
    q = 2 ∨ q = 5 ∨ q = 7 ∨ q = 98714381 ∨ q = 166848103 := by
  have h' : q ∣ 2 ^ 192 * (5 ^ 1 * (7 ^ 1 * (98714381 ^ 1 * 166848103))) := by
    have e : starkPrime - 1 = 2 ^ 192 * (5 ^ 1 * (7 ^ 1 * (98714381 ^ 1 * 166848103))) := by norm_num
    rwa [e] at h
  rcases prime_dvd_pow_mul hq Nat.prime_two h' with h | h
  · exact .inl h
  rcases prime_dvd_pow_mul hq (by norm_num) h with h | h
  · exact .inr (.inl h)
  rcases prime_dvd_pow_mul hq (by norm_num) h with h | h
  · exact .inr (.inr (.inl h))
  rcases prime_dvd_pow_mul hq (by norm_num) h with h | h
  · exact .inr (.inr (.inr (.inl h)))
  · exact .inr (.inr (.inr (.inr ((Nat.prime_dvd_prime_iff_eq hq (by norm_num)).1 h))))

/-- P_STARK is prime (00_scope R7), by Lucas's test with the base 3. -/
theorem starkPrime_prime : starkPrime.Prime := by
  refine lucas_primality _ ((3 : Nat) : ZMod starkPrime)
    (pow_eq_one_of_powMod (by norm_num) (by decide +kernel)) ?_
  intro q hq hd
  rcases starkPrime_factors hq hd with rfl | rfl | rfl | rfl | rfl <;>
    exact pow_ne_one_of_powMod (by norm_num) (by decide +kernel)

theorem admissiblePrime_factors {q : Nat} (hq : q.Prime) (h : q ∣ admissiblePrime - 1) :
    q = 2 ∨ q = 3 ∨ q = 23 := by
  have h' : q ∣ 2 ^ 248 * (3 ^ 2 * 23) := by
    have e : admissiblePrime - 1 = 2 ^ 248 * (3 ^ 2 * 23) := by norm_num
    rwa [e] at h
  rcases prime_dvd_pow_mul hq Nat.prime_two h' with h | h
  · exact .inl h
  rcases prime_dvd_pow_mul hq Nat.prime_three h with h | h
  · exact .inr (.inl h)
  · exact .inr (.inr ((Nat.prime_dvd_prime_iff_eq hq (by norm_num)).1 h))

theorem admissiblePrime_prime : admissiblePrime.Prime := by
  refine lucas_primality _ ((5 : Nat) : ZMod admissiblePrime)
    (pow_eq_one_of_powMod (by norm_num) (by decide +kernel)) ?_
  intro q hq hd
  rcases admissiblePrime_factors hq hd with rfl | rfl | rfl <;>
    exact pow_ne_one_of_powMod (by norm_num) (by decide +kernel)

end Sys2Proof
end

