-- ==== Sys2Proof/Config.lean ====
section
/-! DEFINITION. What is fixed when the block is built (00_scope R5, R6, R7), and the values the spec leaves open: each
of those is an `opaque` constant with no body, so nothing can be proved of it but what its type says. -/

namespace Sys2Proof

/-- An admissible P_GEN: the constraints of 00_scope R6 and R7, and no other. -/
structure GenPrime where
  /-- The modulus. -/
  val : Nat
  /-- R7: the modulus is prime. -/
  prime : val.Prime
  /-- R6: it has bit length 256. -/
  lower : 2 ^ 255 < val
  /-- R6: it fits a register. -/
  upper : val < 2 ^ 256

namespace Config

/-- The identity string of the block (00_scope R1). -/
def identity : String := "felt_core/FC1 (G256,S252,POS3)"

/-- R, the Montgomery radix, the same for both fields (00_scope R6). -/
def radix : Nat := 2 ^ 256

/-- W, LIMB and NLIMB (00_scope R6). -/
abbrev width : Nat := 256
abbrev limbBits : Nat := 64
abbrev nLimbs : Nat := 4

/-- OPEN (00_scope R6, 93 U6): P_GEN is some admissible prime. No body: assumption 6. The type's inhabitant is asked for
as an argument because a constant of an empty type would be a contradiction. -/
opaque somePrime [Inhabited GenPrime] : GenPrime

/-- P_GEN as the block was built. The number given here only shows that admissible primes exist; it is not P_GEN, and
nothing can be proved to relate the two. -/
def genPrime : GenPrime :=
  @somePrime ⟨⟨admissiblePrime, admissiblePrime_prime, by norm_num, by norm_num⟩⟩

/-- P_STARK (00_scope R6). -/
def pStark : Nat := starkPrime

/-- PF: the modulus the F bit selects (30_encoding R58). -/
def modulus : PrimeField → Nat
  | .gen => genPrime.val
  | .stark => pStark

/-- POS_T, POS_RF, POS_RP, N_ROUNDS, POS_PIDX and POS_ALPHA (00_scope R6). -/
abbrev posT : Nat := 3
abbrev posRF : Nat := 8
abbrev posRP : Nat := 83
abbrev nRounds : Nat := posRF + posRP
abbrev posPIdx : Fin 3 := 2
abbrev posAlpha : Nat := 3

/-- The mixing matrix M[i][j], row i the output element, with −1 and −2 as residues (10_state R31). -/
def mds : Fin 3 → Fin 3 → Nat
  | 0, 0 => 3
  | 0, 1 => 1
  | 0, 2 => 1
  | 1, 0 => 1
  | 1, 1 => pStark - 1
  | 1, 2 => 1
  | 2, 0 => 1
  | 2, 1 => 1
  | 2, 2 => pStark - 2

/-- OPEN (00_scope R6, 10_state R30, 93 U8): the 273 round constants, canonical standard values. No body: assumption 7. -/
opaque rcTable : Fin nRounds → Fin 3 → Fin starkPrime

/-- RC[r][i]; no legal command asks for a round past the table. -/
def rc (r : Nat) (i : Fin 3) : Nat :=
  if h : r < nRounds then (rcTable ⟨r, h⟩ i).val else 0

/-- OPEN (70_reset R152): one less than LAT(op), so that LAT(op) ≥ 1. No body: assumption 2. -/
opaque latencyLessOne : BitVec 5 → Nat

/-- LAT(op), the rising edges from acceptance to the response of a legal word (00_scope R6, 70_reset R152). -/
def latency (op : BitVec 5) : Nat := latencyLessOne op + 1

/-- OPEN (70_reset R153): how early the E_ILLEGAL response of an illegal word may come. No body: assumption 2. -/
opaque illegalLatencyLessOne : CmdWord → Nat

/-- Free values (93 U1, U3): what the field registers and CUR hold after a reset edge. No body: assumption 5. -/
opaque freeReg : Nat → Reg → Word
opaque freeCurW : Nat → CmdWord
opaque freeCurD : Nat → Word

end Config

end Sys2Proof
end

