-- ==== Sys2Proof/Syntax.lean ====
section
/-! DEFINITION. The commands of FC1: one constructor for each row of the opcode table (30_encoding R59). -/

namespace Sys2Proof

/-- A command with its operand fields, destination first (30_encoding R57, R60, R61, R68). A field a command does not
use has no place here: it must be zero in the word. -/
inductive Instr where
  /-- Load the data word into a register (40_load_convert R77). -/
  | fld (rd : Reg) (ord : ByteOrder)
  /-- Store a register to the response data word (R78). -/
  | fst (rs1 : Reg) (ord : ByteOrder)
  /-- Load a hardwired constant (R79). -/
  | fconst (f : PrimeField) (rd : Reg) (k : ConstIdx)
  /-- Reduce a raw integer and convert it to Montgomery form (R80). -/
  | tomont (f : PrimeField) (rd rs1 : Reg)
  /-- Convert a Montgomery residue to its standard value (R81). -/
  | frommont (f : PrimeField) (rd rs1 : Reg)
  /-- Modular addition (41_add_sub R87). -/
  | fadd (f : PrimeField) (rd rs1 rs2 : Reg)
  /-- Modular subtraction (R89). -/
  | fsub (f : PrimeField) (rd rs1 rs2 : Reg)
  /-- Montgomery multiplication (42_montgomery R93). -/
  | fmul (f : PrimeField) (rd rs1 rs2 : Reg)
  /-- Montgomery reduction of hi·R + lo, with lo in rs1 and hi in rs2 (R94). -/
  | fredc (f : PrimeField) (rd rs1 rs2 : Reg)
  /-- Modular inverse (43_inverse_div R102). -/
  | finv (f : PrimeField) (rd rs1 : Reg)
  /-- Modular division, rs1 by rs2 (R104). -/
  | fdiv (f : PrimeField) (rd rs1 rs2 : Reg)
  /-- AddRoundConstants of round r on the triple at `base` (44_poseidon R113). -/
  | parc (base : Reg) (r : BitVec 8)
  /-- S-box layer of round r (R115). -/
  | psbox (base : Reg) (r : BitVec 8)
  /-- Linear mixing layer (R117). -/
  | pmds (base : Reg)
  /-- One whole round r (R119). -/
  | prnd (base : Reg) (r : BitVec 8)
  /-- The whole permutation (R121). -/
  | pperm (base : Reg)
  deriving DecidableEq, Repr

end Sys2Proof
end

