-- ==== Sys2Proof/WellFormed.lean ====
section
/-! DEFINITION. Which terms of Instr are commands: the value constraints of the opcode table (30_encoding R59, R68, R72).
Every other constraint of a word is met by the operand types themselves. -/

namespace Sys2Proof

/-- The triple F[base], F[base+1], F[base+2] exists (10_state R18). -/
def tripleFits (base : Reg) : Bool := decide (base.val ≤ 5)

/-- The round exists (30_encoding R65). -/
def roundFits (r : BitVec 8) : Bool := decide (r.toNat < Config.nRounds)

/-- The command can be assembled to a legal word. -/
def Instr.wf : Instr → Bool
  | .fld _ _ => true
  | .fst _ _ => true
  | .fconst _ _ _ => true
  | .tomont _ _ _ => true
  | .frommont _ _ _ => true
  | .fadd _ _ _ _ => true
  | .fsub _ _ _ _ => true
  | .fmul _ _ _ _ => true
  | .fredc _ _ _ _ => true
  | .finv _ _ _ => true
  | .fdiv _ _ _ _ => true
  | .parc base r => tripleFits base && roundFits r
  | .psbox base r => tripleFits base && roundFits r
  | .pmds base => tripleFits base
  | .prnd base r => tripleFits base && roundFits r
  | .pperm base => tripleFits base

end Sys2Proof
end

