-- ==== Sys2Proof/Decode.lean ====
section
/-! DEFINITION. Command words: the fields of 30_encoding R57, the opcode map R59, the legality predicate R72, the decoder,
and the encoder R76. Every word is decoded or rejected by name. -/

namespace Sys2Proof

/-- The sixteen opcodes (30_encoding R59). -/
inductive Op where
  | fld | fst | fconst | tomont | frommont | fadd | fsub | fmul
  | fredc | finv | fdiv | parc | psbox | pmds | prnd | pperm
  deriving DecidableEq, Repr

/-- Why a word is illegal: the causes of 60_exceptions R126. -/
inductive Illegal where
  /-- The opcode is 0x10 .. 0x1F (30_encoding R69). -/
  | reservedOpcode
  /-- RSV ≠ 0 (R62). -/
  | rsvNonzero
  /-- The F bit is not the one the command requires (R58). -/
  | fieldBit
  /-- A field the command does not use is not zero (R68). -/
  | reservedZero
  /-- The triple's base is above 5 (10_state R18). -/
  | tripleBase
  /-- The round index is not below N_ROUNDS (R65). -/
  | roundIndex
  deriving DecidableEq, Repr

/-- v[hi:lo] (00_scope R9). -/
def bits (w : CmdWord) (hi lo : Nat) : Nat := w.toNat / 2 ^ lo % 2 ^ (hi - lo + 1)

/-- The fields of a word (30_encoding R57). -/
def opField (w : CmdWord) : BitVec 5 := BitVec.ofNat 5 (bits w 31 27)
def fField (w : CmdWord) : PrimeField := if bits w 26 26 = 0 then .gen else .stark
def rdField (w : CmdWord) : Reg := Fin.ofNat 8 (bits w 25 23)
def rs1Field (w : CmdWord) : Reg := Fin.ofNat 8 (bits w 22 20)
def rs2Field (w : CmdWord) : Reg := Fin.ofNat 8 (bits w 19 17)
def rsvField (w : CmdWord) : Nat := bits w 16 8
def immField (w : CmdWord) : BitVec 8 := BitVec.ofNat 8 (bits w 7 0)

/-- IMM[0] as the byte order (30_encoding R63). -/
def ordField (w : CmdWord) : ByteOrder := if bits w 0 0 = 0 then .le else .be

/-- IMM[1:0] as the constant index (30_encoding R64). -/
def constField (w : CmdWord) : ConstIdx :=
  match bits w 1 0 with
  | 0 => .zero
  | 1 => .one
  | 2 => .r2
  | _ => .modulus

/-- The number of an opcode (30_encoding R59). -/
def Op.code : Op → BitVec 5
  | .fld => 0x00
  | .fst => 0x01
  | .fconst => 0x02
  | .tomont => 0x03
  | .frommont => 0x04
  | .fadd => 0x05
  | .fsub => 0x06
  | .fmul => 0x07
  | .fredc => 0x08
  | .finv => 0x09
  | .fdiv => 0x0A
  | .parc => 0x0B
  | .psbox => 0x0C
  | .pmds => 0x0D
  | .prnd => 0x0E
  | .pperm => 0x0F

/-- The opcode a 5-bit number names; 0x10 .. 0x1F are reserved (30_encoding R69). -/
def Op.ofCode (c : BitVec 5) : Option Op :=
  match c.toNat with
  | 0 => some .fld
  | 1 => some .fst
  | 2 => some .fconst
  | 3 => some .tomont
  | 4 => some .frommont
  | 5 => some .fadd
  | 6 => some .fsub
  | 7 => some .fmul
  | 8 => some .fredc
  | 9 => some .finv
  | 10 => some .fdiv
  | 11 => some .parc
  | 12 => some .psbox
  | 13 => some .pmds
  | 14 => some .prnd
  | 15 => some .pperm
  | _ => none

/-- The `match` column of the opcode map (30_encoding R59). -/
def Op.fixedBits : Op → CmdWord
  | .fld => 0x00000000
  | .fst => 0x08000000
  | .fconst => 0x10000000
  | .tomont => 0x18000000
  | .frommont => 0x20000000
  | .fadd => 0x28000000
  | .fsub => 0x30000000
  | .fmul => 0x38000000
  | .fredc => 0x40000000
  | .finv => 0x48000000
  | .fdiv => 0x50000000
  | .parc => 0x5C000000
  | .psbox => 0x64000000
  | .pmds => 0x6C000000
  | .prnd => 0x74000000
  | .pperm => 0x7C000000

/-- The `mask` column of the opcode map (30_encoding R59). -/
def Op.mask : Op → CmdWord
  | .fld => 0xFC7FFFFE
  | .fst => 0xFF8FFFFE
  | .fconst => 0xF87FFFFC
  | .tomont => 0xF80FFFFF
  | .frommont => 0xF80FFFFF
  | .fadd => 0xF801FFFF
  | .fsub => 0xF801FFFF
  | .fmul => 0xF801FFFF
  | .fredc => 0xF801FFFF
  | .finv => 0xF80FFFFF
  | .fdiv => 0xF801FFFF
  | .parc => 0xFC7FFF00
  | .psbox => 0xFC7FFF00
  | .pmds => 0xFC7FFFFF
  | .prnd => 0xFC7FFF00
  | .pperm => 0xFC7FFFFF

/-- The commands that work on a triple of registers (10_state R18). -/
def Op.usesTriple : Op → Bool
  | .parc | .psbox | .pmds | .prnd | .pperm => true
  | .fld | .fst | .fconst | .tomont | .frommont | .fadd | .fsub | .fmul | .fredc | .finv | .fdiv => false

/-- The commands with a round index (30_encoding R65). -/
def Op.usesRound : Op → Bool
  | .parc | .psbox | .prnd => true
  | .pmds | .pperm => false
  | .fld | .fst | .fconst | .tomont | .frommont | .fadd | .fsub | .fmul | .fredc | .finv | .fdiv => false

/-- The legality predicate, clause by clause (30_encoding R72). -/
def legal (w : CmdWord) : Bool :=
  match Op.ofCode (opField w) with
  | none => false
  | some op =>
    (w &&& op.mask == op.fixedBits)
      && (!op.usesTriple || decide (bits w 25 23 ≤ 5))
      && (!op.usesRound || decide (bits w 7 0 < Config.nRounds))

/-- The command a legal word of an opcode stands for, field by field (30_encoding R60, R61, R63 to R66). -/
def Op.build (op : Op) (w : CmdWord) : Instr :=
  match op with
  | .fld => .fld (rdField w) (ordField w)
  | .fst => .fst (rs1Field w) (ordField w)
  | .fconst => .fconst (fField w) (rdField w) (constField w)
  | .tomont => .tomont (fField w) (rdField w) (rs1Field w)
  | .frommont => .frommont (fField w) (rdField w) (rs1Field w)
  | .fadd => .fadd (fField w) (rdField w) (rs1Field w) (rs2Field w)
  | .fsub => .fsub (fField w) (rdField w) (rs1Field w) (rs2Field w)
  | .fmul => .fmul (fField w) (rdField w) (rs1Field w) (rs2Field w)
  | .fredc => .fredc (fField w) (rdField w) (rs1Field w) (rs2Field w)
  | .finv => .finv (fField w) (rdField w) (rs1Field w)
  | .fdiv => .fdiv (fField w) (rdField w) (rs1Field w) (rs2Field w)
  | .parc => .parc (rdField w) (immField w)
  | .psbox => .psbox (rdField w) (immField w)
  | .pmds => .pmds (rdField w)
  | .prnd => .prnd (rdField w) (immField w)
  | .pperm => .pperm (rdField w)

/-- The name of what is wrong with a word that misses its row's mask. -/
def maskReason (op : Op) (w : CmdWord) : Illegal :=
  if rsvField w ≠ 0 then .rsvNonzero
  else if (w &&& op.mask) &&& 0x04000000 ≠ op.fixedBits &&& 0x04000000 then .fieldBit
  else .reservedZero

/-- The decoder: total, and a word it rejects is rejected by name (30_encoding R72). -/
def decode (w : CmdWord) : Except Illegal Instr :=
  match Op.ofCode (opField w) with
  | none => .error .reservedOpcode
  | some op =>
    if w &&& op.mask ≠ op.fixedBits then .error (maskReason op w)
    else if op.usesTriple && !tripleFits (rdField w) then .error .tripleBase
    else if op.usesRound && !roundFits (immField w) then .error .roundIndex
    else .ok (op.build w)

/-- The decoder on a word of the opcode table, whose bits above `nbits` are zero. -/
def decodeTableWord (nbits w : Nat) : Option Instr :=
  (decode (BitVec.ofNat 32 (w % 2 ^ nbits))).toOption

/-- The F bit of a field (30_encoding R58). -/
def PrimeField.bit : PrimeField → Nat
  | .gen => 0
  | .stark => 1

/-- The ORD bit of a byte order (30_encoding R63). -/
def ByteOrder.bit : ByteOrder → Nat
  | .le => 0
  | .be => 1

/-- The number k of a constant (10_state R29). -/
def ConstIdx.num : ConstIdx → Nat
  | .zero => 0
  | .one => 1
  | .r2 => 2
  | .modulus => 3

/-- The opcode of a command (30_encoding R59). -/
def Instr.op : Instr → Op
  | .fld _ _ => .fld
  | .fst _ _ => .fst
  | .fconst _ _ _ => .fconst
  | .tomont _ _ _ => .tomont
  | .frommont _ _ _ => .frommont
  | .fadd _ _ _ _ => .fadd
  | .fsub _ _ _ _ => .fsub
  | .fmul _ _ _ _ => .fmul
  | .fredc _ _ _ _ => .fredc
  | .finv _ _ _ => .finv
  | .fdiv _ _ _ _ => .fdiv
  | .parc _ _ => .parc
  | .psbox _ _ => .psbox
  | .pmds _ => .pmds
  | .prnd _ _ => .prnd
  | .pperm _ => .pperm

/-- w = op·2^27 + f·2^26 + rd·2^23 + rs1·2^20 + rs2·2^17 + imm, with RSV = 0 (30_encoding R76). -/
def assembleFields (op : Op) (f rd rs1 rs2 imm : Nat) : CmdWord :=
  BitVec.ofNat 32 (op.code.toNat * 2 ^ 27 + f * 2 ^ 26 + rd * 2 ^ 23 + rs1 * 2 ^ 20 + rs2 * 2 ^ 17 + imm)

/-- The word of a command; a field the command does not use is zero, and F is 1 for the Poseidon commands
(30_encoding R68, R76). -/
def encode : Instr → CmdWord
  | .fld rd o => assembleFields .fld 0 rd 0 0 o.bit
  | .fst rs1 o => assembleFields .fst 0 0 rs1 0 o.bit
  | .fconst f rd k => assembleFields .fconst f.bit rd 0 0 k.num
  | .tomont f rd rs1 => assembleFields .tomont f.bit rd rs1 0 0
  | .frommont f rd rs1 => assembleFields .frommont f.bit rd rs1 0 0
  | .fadd f rd rs1 rs2 => assembleFields .fadd f.bit rd rs1 rs2 0
  | .fsub f rd rs1 rs2 => assembleFields .fsub f.bit rd rs1 rs2 0
  | .fmul f rd rs1 rs2 => assembleFields .fmul f.bit rd rs1 rs2 0
  | .fredc f rd rs1 rs2 => assembleFields .fredc f.bit rd rs1 rs2 0
  | .finv f rd rs1 => assembleFields .finv f.bit rd rs1 0 0
  | .fdiv f rd rs1 rs2 => assembleFields .fdiv f.bit rd rs1 rs2 0
  | .parc base r => assembleFields .parc 1 base 0 0 r.toNat
  | .psbox base r => assembleFields .psbox 1 base 0 0 r.toNat
  | .pmds base => assembleFields .pmds 1 base 0 0 0
  | .prnd base r => assembleFields .prnd 1 base 0 0 r.toNat
  | .pperm base => assembleFields .pperm 1 base 0 0 0

/-- The assembler refuses operands that would make an illegal word (30_encoding R76). -/
def assemble (i : Instr) : Option CmdWord := if i.wf then some (encode i) else none

end Sys2Proof
end

