-- ==== Sys2Proof/Machine/FieldArith.lean ====
section
/-! DEFINITION. The field helper functions and the architectural value of every arithmetic operation, on natural numbers
(00_scope R8, R10; 41_add_sub; 42_montgomery; 43_inverse_div). -/

namespace Sys2Proof.Machine

/-- a⁻¹ mod P, by Fermat's little theorem, which 43_inverse_div R103 (1) allows; the inverse is unique (assumption 9). -/
def invMod (p a : Nat) : Nat := powMod p Config.width a (p - 2)

/-- R⁻¹ mod P (00_scope R10). -/
def rInv (p : Nat) : Nat := invMod p (Config.radix % p)

/-- mont_P(x): standard value to Montgomery residue (00_scope R10). -/
def mont (p x : Nat) : Nat := x * Config.radix % p

/-- val_P(v): Montgomery residue to standard value (00_scope R10). -/
def val (p v : Nat) : Nat := v * rInv p % p

/-- MontMul_P(a, b) (00_scope R10, 42_montgomery R93). -/
def montMul (p a b : Nat) : Nat := a * b * rInv p % p

/-- isFelt_P(v): v is a canonical residue (00_scope R10). -/
def isFelt (p v : Nat) : Bool := decide (v < p)

/-- (a + b) mod P (41_add_sub R87). -/
def addMod (p a b : Nat) : Nat := (a + b) % p

/-- (a − b) mod P, the least non-negative residue, for b ≤ P (41_add_sub R89). -/
def subMod (p a b : Nat) : Nat := (a + (p - b)) % p

/-- T · R⁻¹ mod P of T = hi·R + lo (42_montgomery R94). -/
def reduceWide (p lo hi : Nat) : Nat := (hi * Config.radix + lo) * rInv p % p

/-- R² · a⁻¹ mod P: the residue of the inverse (43_inverse_div R102). -/
def montInv (p a : Nat) : Nat := Config.radix ^ 2 * invMod p a % p

/-- a · b⁻¹ · R mod P: the residue of the quotient (43_inverse_div R104). -/
def montDiv (p a b : Nat) : Nat := a * invMod p b * Config.radix % p

/-- The constants FCONST reads (10_state R29, 40_load_convert R79). -/
def fieldConst (p : Nat) : ConstIdx → Nat
  | .zero => 0
  | .one => Config.radix % p
  | .r2 => Config.radix ^ 2 % p
  | .modulus => p

end Sys2Proof.Machine
end

