-- ==== Sys2Proof/Machine/State.lean ====
section
/-! DEFINITION. The state of the block (10_state R14, R21, R24, R25, R37), the input pins the host drives (20_memory R40,
R41; 70_reset R143), why a step can stop, and the state after reset (10_state R35). -/

namespace Sys2Proof.Machine

/-- The outcome of a command: the names of RSP_STATUS's values (60_exceptions R125). -/
inductive Status where
  /-- The command completed and performed all its writes. -/
  | ok
  /-- DivisionByZero. -/
  | div0
  /-- A felt operand is not a canonical residue. -/
  | range
  /-- The command word is not legal. -/
  | illegal
  /-- An operand register has V = 0. -/
  | uninit
  deriving DecidableEq, Repr

/-- The levels on the input pins at one rising edge of `clk`. -/
structure Pins where
  /-- `rst`, active high (70_reset R143). -/
  rst : Bool
  /-- `cmd_valid` (20_memory R40). -/
  cmdValid : Bool
  /-- `cmd_word`. -/
  cmdWord : CmdWord
  /-- `cmd_data`. -/
  cmdData : Word
  /-- `rsp_ready` (20_memory R41). -/
  rspReady : Bool
  deriving DecidableEq, Repr

/-- One rising edge: the pins, and whether the LAT of the command in flight has run out at it. LAT is an OPEN parameter
(70_reset R152), so the model leaves the edge of completion to this bit (assumption 2). -/
structure Edge extends Pins where
  /-- The command in flight, if there is one, completes at this edge (20_memory R43). -/
  done : Bool
  deriving DecidableEq, Repr

/-- An edge at which the host asks for nothing and a command in flight completes. -/
def Edge.quiet : Edge :=
  { rst := false, cmdValid := false, cmdWord := 0, cmdData := 0, rspReady := false, done := true }

/-- The state of one block. It has no memory, no program counter, no flags, no mode and no writable control register
(10_state R26 to R29, R39). -/
structure State where
  /-- The field registers F[0..7], raw 256-bit patterns (10_state R14, R16). -/
  F : Vector Word 8
  /-- The valid bits V[0..7] (10_state R21). -/
  V : Vector Bool 8
  /-- BUSY: one command is in flight (10_state R25). -/
  busy : Bool
  /-- CUR.W, the word of the latched command (10_state R25); meaningful while `busy`. -/
  curW : CmdWord
  /-- CUR.D, its data word. -/
  curD : Word
  /-- RSP_VALID (10_state R24). -/
  rspValid : Bool
  /-- RSP_STATUS (10_state R24, 60_exceptions R125). -/
  rspStatus : BitVec 4
  /-- RSP_DATA (10_state R24). -/
  rspData : Word
  /-- The host: the rising edges to come, soonest first; past the list every edge is quiet (assumption 1). -/
  edges : List Edge
  /-- The model's own counter: how many reset edges have drawn free values (assumption 5). -/
  freeCtr : Nat
  deriving DecidableEq, Repr

/-- Why a step can stop with a fault: the block has none. Every error of every command is a status in its response
(60_exceptions R132, R142), so nothing raises a fault. -/
inductive Fault where
  deriving DecidableEq, Repr

/-- Why a step can be refused. -/
inductive Refusal where
  /-- An arm of `exec` without a meaning, by its mnemonic: safe. No arm raises it; every command has its meaning. -/
  | notModelled (mnemonic : String)
  deriving DecidableEq, Repr

/-- The state after reset (10_state R35, 70_reset R143, R148). F and CUR are unspecified there: zero is the model's
choice (assumptions 3 and 4). Nothing is pending: the block is idle and the host has presented no command. -/
def State.reset : State where
  F := Vector.replicate 8 0
  V := Vector.replicate 8 false
  busy := false
  curW := 0
  curD := 0
  rspValid := false
  rspStatus := 0
  rspData := 0
  edges := []
  freeCtr := 0

end Sys2Proof.Machine
end

