-- ==== Sys2Proof/Machine/Flags.lean ====
section
/-! DEFINITION. The block has no flags (10_state R28): the one condition a command leaves is its status. This file holds the
status codes and the rule that picks one status when several apply. -/

namespace Sys2Proof.Machine

/-- The 4-bit value of RSP_STATUS (60_exceptions R125). -/
def Status.code : Status → BitVec 4
  | .ok => 0
  | .div0 => 1
  | .range => 2
  | .illegal => 3
  | .uninit => 4

/-- Which status a command ends with, given which checks fail: the first failing check decides, in the order E_ILLEGAL,
E_UNINIT, E_RANGE, E_DIV0 (00_scope R13, 60_exceptions R128). -/
def verdict (illegal uninit range div0 : Bool) : Status :=
  if illegal then .illegal
  else if uninit then .uninit
  else if range then .range
  else if div0 then .div0
  else .ok

end Sys2Proof.Machine
end

