-- ==== Sys2Proof/Machine/Ops.lean ====
section
/-! DEFINITION. The named operations over the state: reading and writing registers, ending a command, and what each kind of
rising edge does. The block has no traps: RAISING AN ERROR is ending the command with a status, and nothing returns from it
(60_exceptions R127, R132, R133). -/

namespace Sys2Proof.Machine

/-- The result of a meaning or a step. -/
abbrev Result := Host.Outcome State Fault Refusal

/-! ## Registers -/

/-- F[i] (00_scope R11). -/
def State.reg (s : State) (i : Reg) : Word := s.F[i]

/-- V[i] (00_scope R11, 10_state R21). -/
def State.valid (s : State) (i : Reg) : Bool := s.V[i]

/-- F[i] as an unsigned integer: how a raw operand, and a felt operand once checked, is used (10_state R16). -/
def State.operand (s : State) (i : Reg) : Nat := (s.reg i).toNat

/-- F[i] <- v ; V[i] <- 1 (10_state R22). -/
def State.writeReg (s : State) (i : Reg) (v : Word) : State :=
  { s with F := s.F.set i v, V := s.V.set i true }

/-! ## Ending a command -/

/-- rsp(status, data) and the end of the command: RSP_STATUS, RSP_DATA, RSP_VALID <- 1, BUSY <- 0, all at one edge
(20_memory R43, 10_state R24, R25). -/
def State.respond (s : State) (st : Status) (data : Word) : State :=
  { s with rspStatus := st.code, rspData := data, rspValid := true, busy := false }

/-- raise E_X(): the response carries the status and data 0, and no register and no valid bit is written
(00_scope R11, 60_exceptions R127). -/
def State.raise (s : State) (st : Status) : State := s.respond st 0

/-- The end of a command with one destination: on OK it writes `y`, on any error nothing (00_scope R12). -/
def State.finish (s : State) (st : Status) (rd : Reg) (y : Nat) : State :=
  if st = .ok then (s.writeReg rd (BitVec.ofNat 256 y)).respond .ok 0 else s.raise st

/-- The end of FST: on OK the response carries `data`, and no register is written (40_load_convert R78). -/
def State.finishData (s : State) (st : Status) (data : Nat) : State :=
  if st = .ok then s.respond .ok (BitVec.ofNat 256 data) else s.raise st

/-! ## Rising edges -/

/-- `cmd_ready` (20_memory R42). -/
def State.cmdReady (s : State) (rst : Bool) : Bool := !s.busy && !s.rspValid && !rst

/-- A command is accepted: CUR <- (cmd_word, cmd_data), BUSY <- 1 (20_memory R40). -/
def State.accept (s : State) (w : CmdWord) (d : Word) : State :=
  { s with curW := w, curD := d, busy := true }

/-- The host takes the response: RSP_VALID <- 0, and RSP_STATUS and RSP_DATA stay (10_state R24, 20_memory R41). -/
def State.takeRsp (s : State) : State := { s with rspValid := false }

/-- An edge with rst = 1: V, BUSY and the response registers are cleared, whatever was in flight or waiting is lost, and
F and CUR are unspecified, so they take free values (70_reset R143, R145; assumption 5). -/
def State.resetEdge (s : State) : State :=
  { F := Vector.ofFn (Config.freeReg s.freeCtr)
    V := Vector.replicate 8 false
    busy := false
    curW := Config.freeCurW s.freeCtr
    curD := Config.freeCurD s.freeCtr
    rspValid := false
    rspStatus := Status.ok.code
    rspData := 0
    edges := s.edges
    freeCtr := s.freeCtr + 1 }

/-- The next rising edge; past the listed ones every edge is quiet (assumption 1). -/
def State.nextEdge (s : State) : Edge := s.edges.headD Edge.quiet

/-- The state with its next edge taken off the list. -/
def State.dropEdge (s : State) : State := { s with edges := s.edges.tail }

/-- What an edge does at the two ports, by the levels before it: a waiting response is taken when `rsp_ready` is 1
(20_memory R41), and a command is accepted when `cmd_valid` and `cmd_ready` are 1 (20_memory R40). -/
def State.portEdge (s : State) (e : Edge) : State :=
  let taken := if s.rspValid && e.rspReady then s.takeRsp else s
  if e.cmdValid && s.cmdReady e.rst then taken.accept e.cmdWord e.cmdData else taken

end Sys2Proof.Machine
end

