-- ==== Sys2Proof/Machine/Operands.lean ====
section
/-! DEFINITION. Operands: the byte lanes and byte orders of a data word (20_memory R44 to R46), the modulus of a command, and the
table of which registers each command reads, as which kind, and writes (10_state R17). -/

namespace Sys2Proof.Machine

/-- The byte array of a data word: B[k] on bits [8k+7 : 8k], for k = 0 .. 31 (20_memory R44). -/
def laneBytes (d : Word) : List Byte := (List.range 32).map fun k => d.extractLsb' (8 * k) 8

/-- Σ B[k]·256^k. -/
def sumBytes : List Byte → Nat
  | [] => 0
  | b :: bs => b.toNat + 256 * sumBytes bs

/-- The integer a byte array denotes: Σ B[k]·256^k, or Σ B[k]·256^(31−k) (20_memory R45). -/
def intOf : ByteOrder → List Byte → Nat
  | .le, bs => sumBytes bs
  | .be, bs => sumBytes bs.reverse

/-- The byte array of an integer (20_memory R46). -/
def bytesOf : ByteOrder → Word → List Byte
  | .le, x => laneBytes x
  | .be, x => (laneBytes x).reverse

/-- The field a command works in; FLD and FST have none (30_encoding R58). -/
def instrField : Instr → Option PrimeField
  | .fld _ _ => none
  | .fst _ _ => none
  | .fconst f _ _ => some f
  | .tomont f _ _ => some f
  | .frommont f _ _ => some f
  | .fadd f _ _ _ => some f
  | .fsub f _ _ _ => some f
  | .fmul f _ _ _ => some f
  | .fredc f _ _ _ => some f
  | .finv f _ _ => some f
  | .fdiv f _ _ _ => some f
  | .parc _ _ => some .stark
  | .psbox _ _ => some .stark
  | .pmds _ => some .stark
  | .prnd _ _ => some .stark
  | .pperm _ => some .stark

/-- F[base], F[base+1], F[base+2] (10_state R18). -/
def tripleRegs (base : Reg) : List Reg := [base, base + 1, base + 2]

/-- The registers a command reads (10_state R17). -/
def instrReads : Instr → List Reg
  | .fld _ _ => []
  | .fst rs1 _ => [rs1]
  | .fconst _ _ _ => []
  | .tomont _ _ rs1 => [rs1]
  | .frommont _ _ rs1 => [rs1]
  | .fadd _ _ rs1 rs2 => [rs1, rs2]
  | .fsub _ _ rs1 rs2 => [rs1, rs2]
  | .fmul _ _ rs1 rs2 => [rs1, rs2]
  | .fredc _ _ rs1 rs2 => [rs1, rs2]
  | .finv _ _ rs1 => [rs1]
  | .fdiv _ _ rs1 rs2 => [rs1, rs2]
  | .parc base _ => tripleRegs base
  | .psbox base _ => tripleRegs base
  | .pmds base => tripleRegs base
  | .prnd base _ => tripleRegs base
  | .pperm base => tripleRegs base

/-- Those of them it reads as felts; the others it reads raw (10_state R17). -/
def instrFelts : Instr → List Reg
  | .fld _ _ => []
  | .fst _ _ => []
  | .fconst _ _ _ => []
  | .tomont _ _ _ => []
  | .frommont _ _ rs1 => [rs1]
  | .fadd _ _ rs1 rs2 => [rs1, rs2]
  | .fsub _ _ rs1 rs2 => [rs1, rs2]
  | .fmul _ _ rs1 rs2 => [rs1, rs2]
  | .fredc _ _ _ rs2 => [rs2]
  | .finv _ _ rs1 => [rs1]
  | .fdiv _ _ rs1 rs2 => [rs1, rs2]
  | .parc base _ => tripleRegs base
  | .psbox base _ => tripleRegs base
  | .pmds base => tripleRegs base
  | .prnd base _ => tripleRegs base
  | .pperm base => tripleRegs base

/-- The registers a command writes (10_state R17). -/
def instrWrites : Instr → List Reg
  | .fld rd _ => [rd]
  | .fst _ _ => []
  | .fconst _ rd _ => [rd]
  | .tomont _ rd _ => [rd]
  | .frommont _ rd _ => [rd]
  | .fadd _ rd _ _ => [rd]
  | .fsub _ rd _ _ => [rd]
  | .fmul _ rd _ _ => [rd]
  | .fredc _ rd _ _ => [rd]
  | .finv _ rd _ => [rd]
  | .fdiv _ rd _ _ => [rd]
  | .parc base _ => tripleRegs base
  | .psbox base _ => tripleRegs base
  | .pmds base => tripleRegs base
  | .prnd base _ => tripleRegs base
  | .pperm base => tripleRegs base

/-- The register whose value is inverted, for the two commands that can end with E_DIV0 (60_exceptions R126). -/
def instrDivisor : Instr → Option Reg
  | .finv _ _ rs1 => some rs1
  | .fdiv _ _ _ rs2 => some rs2
  | .fld _ _ | .fst _ _ | .fconst _ _ _ | .tomont _ _ _ | .frommont _ _ _ => none
  | .fadd _ _ _ _ | .fsub _ _ _ _ | .fmul _ _ _ _ | .fredc _ _ _ _ => none
  | .parc _ _ | .psbox _ _ | .pmds _ | .prnd _ _ | .pperm _ => none

end Sys2Proof.Machine
end

