-- ==== Sys2Proof/Machine/AddSub.lean ====
section
/-! DEFINITION. FADD and FSUB (41_add_sub). -/

namespace Sys2Proof.Machine

/-- 41_add_sub R87. -/
def execFadd (f : PrimeField) (rd rs1 rs2 : Reg) (s : State) : Result :=
  let p := Config.modulus f
  let a := s.operand rs1
  let b := s.operand rs2
  .next (s.finish (verdict false (!s.valid rs1 || !s.valid rs2) (!isFelt p a || !isFelt p b) false) rd (addMod p a b))

/-- 41_add_sub R89. -/
def execFsub (f : PrimeField) (rd rs1 rs2 : Reg) (s : State) : Result :=
  let p := Config.modulus f
  let a := s.operand rs1
  let b := s.operand rs2
  .next (s.finish (verdict false (!s.valid rs1 || !s.valid rs2) (!isFelt p a || !isFelt p b) false) rd (subMod p a b))

end Sys2Proof.Machine
end

