-- ==== Sys2Proof/Machine/InverseDiv.lean ====
section
/-! DEFINITION. FINV and FDIV (43_inverse_div). -/

namespace Sys2Proof.Machine

/-- 43_inverse_div R102: zero is found before any inversion. -/
def execFinv (f : PrimeField) (rd rs1 : Reg) (s : State) : Result :=
  let p := Config.modulus f
  let a := s.operand rs1
  .next (s.finish (verdict false (!s.valid rs1) (!isFelt p a) (decide (a = 0))) rd (montInv p a))

/-- 43_inverse_div R104: a zero divisor is an error for every dividend. -/
def execFdiv (f : PrimeField) (rd rs1 rs2 : Reg) (s : State) : Result :=
  let p := Config.modulus f
  let a := s.operand rs1
  let b := s.operand rs2
  .next (s.finish
    (verdict false (!s.valid rs1 || !s.valid rs2) (!isFelt p a || !isFelt p b) (decide (b = 0))) rd (montDiv p a b))

end Sys2Proof.Machine
end

