-- ==== Sys2Proof/Machine/LoadConvert.lean ====
section
/-! DEFINITION. FLD, FST, FCONST, TOMONT and FROMMONT (40_load_convert). A meaning is the end of the command in flight: it starts
from the state at acceptance and gives the state at completion (10_state R34). -/

namespace Sys2Proof.Machine

/-- 40_load_convert R77. -/
def execFld (rd : Reg) (ord : ByteOrder) (s : State) : Result :=
  .next (s.finish .ok rd (intOf ord (laneBytes s.curD)))

/-- 40_load_convert R78. -/
def execFst (rs1 : Reg) (ord : ByteOrder) (s : State) : Result :=
  .next (s.finishData (verdict false (!s.valid rs1) false false) (sumBytes (bytesOf ord (s.reg rs1))))

/-- 40_load_convert R79. -/
def execFconst (f : PrimeField) (rd : Reg) (k : ConstIdx) (s : State) : Result :=
  .next (s.finish .ok rd (fieldConst (Config.modulus f) k))

/-- 40_load_convert R80. -/
def execTomont (f : PrimeField) (rd rs1 : Reg) (s : State) : Result :=
  let x := s.operand rs1
  .next (s.finish (verdict false (!s.valid rs1) false false) rd (mont (Config.modulus f) x))

/-- 40_load_convert R81. -/
def execFrommont (f : PrimeField) (rd rs1 : Reg) (s : State) : Result :=
  let p := Config.modulus f
  let a := s.operand rs1
  .next (s.finish (verdict false (!s.valid rs1) (!isFelt p a) false) rd (val p a))

end Sys2Proof.Machine
end

