-- ==== Sys2Proof/Machine/Montgomery.lean ====
section
/-! DEFINITION. FMUL and FREDC (42_montgomery). -/

namespace Sys2Proof.Machine

/-- 42_montgomery R93. -/
def execFmul (f : PrimeField) (rd rs1 rs2 : Reg) (s : State) : Result :=
  let p := Config.modulus f
  let a := s.operand rs1
  let b := s.operand rs2
  .next (s.finish (verdict false (!s.valid rs1 || !s.valid rs2) (!isFelt p a || !isFelt p b) false) rd (montMul p a b))

/-- 42_montgomery R94: rs1 is the raw low half, rs2 the felt high half. -/
def execFredc (f : PrimeField) (rd rs1 rs2 : Reg) (s : State) : Result :=
  let p := Config.modulus f
  let lo := s.operand rs1
  let hi := s.operand rs2
  .next (s.finish (verdict false (!s.valid rs1 || !s.valid rs2) (!isFelt p hi) false) rd (reduceWide p lo hi))

end Sys2Proof.Machine
end

