-- ==== Sys2Proof/Machine/Datapath.lean ====
section
/-! DEFINITION. The datapath realisations the spec gives beside the architectural values: the adder, the subtractor, REDC, the
word-serial multiplier, the inverters and the multiplier-free linear layer. No meaning calls them: statements say that they
give the architectural values. -/

namespace Sys2Proof.Machine

/-- y = (u ≥ P) ? u − P : u, the final reduction (42_montgomery R97). -/
def condSub (p u : Nat) : Nat := if p ≤ u then u - p else u

/-- The modular adder: a 257-bit sum, then one conditional subtraction on all 257 bits (41_add_sub R88). -/
def adderPath (p : Nat) (a b : Word) : Word :=
  let sum : BitVec 257 := a.setWidth 257 + b.setWidth 257
  let y := if BitVec.ofNat 257 p ≤ sum then sum - BitVec.ofNat 257 p else sum
  y.setWidth 256

/-- The modular subtractor: a 256-bit difference with a borrow, corrected by adding P (41_add_sub R90). -/
def subtractorPath (p : Nat) (a b : Word) : Word :=
  let d := a - b
  let borrow := decide (a < b)
  if borrow then d + BitVec.ofNat 256 p else d

/-- P⁻¹ modulo 2^k for odd P: the odd residues modulo 2^k form a group of order 2^(k−1). -/
def invPow2 (k p : Nat) : Nat := powMod (2 ^ k) k p (2 ^ (k - 1) - 1)

/-- N' = −P⁻¹ mod 2^256 (10_state R29). -/
def nPrime (p : Nat) : Nat := Config.radix - invPow2 Config.width p

/-- N0' = −P⁻¹ mod 2^64, the low limb of N' (10_state R29). -/
def nPrime0 (p : Nat) : Nat := 2 ^ Config.limbBits - invPow2 Config.limbBits p

/-- m = ((T mod R) · N') mod R (42_montgomery R95). -/
def redcM (p t : Nat) : Nat := t % Config.radix * nPrime p % Config.radix

/-- u = (T + m·P) / R (42_montgomery R95). -/
def redcU (p t : Nat) : Nat := (t + redcM p t * p) / Config.radix

/-- REDC(T) for T < P·R (42_montgomery R95). -/
def redc (p t : Nat) : Nat := condSub p (redcU p t)

/-- Limb j of a 256-bit value (10_state R14). -/
def limb (x j : Nat) : Nat := x / 2 ^ (Config.limbBits * j) % 2 ^ Config.limbBits

/-- The accumulator of the word-serial multiplier before its step over limb i is reduced: t + a · b_i (42_montgomery R98). -/
def ciosSum (a b i t : Nat) : Nat := t + a * limb b i

/-- The multiplier m = (t[0] · N0') mod 2^64 of one step (42_montgomery R98). -/
def ciosM (p t : Nat) : Nat := t % 2 ^ Config.limbBits * nPrime0 p % 2 ^ Config.limbBits

/-- The second sum of one step, before the shift: t + m · P (42_montgomery R98). -/
def ciosReduced (p t : Nat) : Nat := t + ciosM p t * p

/-- One step of the word-serial loop: accumulate, clear the low limb by a multiple of P, shift it out (42_montgomery R98). -/
def ciosStep (p a b i t : Nat) : Nat := ciosReduced p (ciosSum a b i t) / 2 ^ Config.limbBits

/-- The accumulator after the first n steps of the loop. -/
def ciosLoop (p a b : Nat) : Nat → Nat
  | 0 => 0
  | n + 1 => ciosStep p a b n (ciosLoop p a b n)

/-- The word-serial multiplier (42_montgomery R98). -/
def cios (p a b : Nat) : Nat := condSub p (ciosLoop p a b Config.nLimbs)

/-- Square and multiply by Montgomery products, starting from one, over n exponent bits: MontExp (43_inverse_div R103). -/
def montExp (p : Nat) : Nat → Nat → Nat → Nat
  | 0, _, _ => Config.radix % p
  | n + 1, a, e =>
    let r := montExp p n (montMul p a a) (e / 2)
    if e % 2 = 1 then montMul p a r else r

/-- The Fermat inverter: a^(P−2) in Montgomery form (43_inverse_div R103 (1)). -/
def fermatInverter (p a : Nat) : Nat := montExp p Config.width a (p - 2)

/-- The extended Euclidean inverter, on the residue, then the factor R² (43_inverse_div R103 (2)). -/
def euclidInverter (p a : Nat) : Nat :=
  Config.radix ^ 2 * ((Int.gcdA a p) % (p : Int)).toNat % p

/-- −x by the subtractor: P − x, or 0 for x = 0 (44_poseidon R118). -/
def negMod (p x : Nat) : Nat := if x = 0 then 0 else p - x

end Sys2Proof.Machine
end

