-- ==== Sys2Proof/Machine/PoseidonUnit.lean ====
section
/-! DEFINITION. The Poseidon unit as functions on triples of Montgomery residues of the STARK field (44_poseidon R108 to R121),
over any table of round constants, so that the named test tables can be put in the place of the OPEN one. -/

namespace Sys2Proof.Machine

/-- The Poseidon state: an ordered triple of residues (10_state R18). -/
structure Triple where
  e0 : Nat
  e1 : Nat
  e2 : Nat
  deriving DecidableEq, Repr

/-- Element i of the triple. -/
def tripleGet (s : Triple) : Fin 3 → Nat
  | 0 => s.e0
  | 1 => s.e1
  | 2 => s.e2

/-- The triple with the given elements. -/
def tripleOf (g : Fin 3 → Nat) : Triple := ⟨g 0, g 1, g 2⟩

/-- Round r is a full round (44_poseidon R110). -/
def fullRound (r : Nat) : Bool :=
  decide (r < Config.posRF / 2) || decide (Config.posRF / 2 + Config.posRP ≤ r)

/-- i ∈ SB(r): the S-box of round r applies to element i (44_poseidon R110). -/
def inSbox (r : Nat) (i : Fin 3) : Bool := fullRound r || decide (i = Config.posPIdx)

/-- x³ on residues, by two Montgomery multiplications (44_poseidon R111, R116). -/
def cube (x : Nat) : Nat := montMul Config.pStark (montMul Config.pStark x x) x

/-- ARC_r (44_poseidon R108, R109). -/
def arcLayer (rc : Nat → Fin 3 → Nat) (r : Nat) (s : Triple) : Triple :=
  tripleOf fun i => addMod Config.pStark (tripleGet s i) (mont Config.pStark (rc r i))

/-- SBOX_r (44_poseidon R108). -/
def sboxLayer (r : Nat) (s : Triple) : Triple :=
  tripleOf fun i => if inSbox r i then cube (tripleGet s i) else tripleGet s i

/-- Row i of MIX: Σ_j MontMul(mont(M[i][j]), s_j) mod P (44_poseidon R108). -/
def mixRow (m : Fin 3 → Fin 3 → Nat) (s : Triple) (i : Fin 3) : Nat :=
  let term := fun j => montMul Config.pStark (mont Config.pStark (m i j)) (tripleGet s j)
  (term 0 + term 1 + term 2) % Config.pStark

/-- MIX (44_poseidon R108, R117). -/
def mixLayer (m : Fin 3 → Fin 3 → Nat) (s : Triple) : Triple := tripleOf (mixRow m s)

/-- ROUND_r = MIX ∘ SBOX_r ∘ ARC_r (44_poseidon R108). -/
def poseidonRound (rc : Nat → Fin 3 → Nat) (r : Nat) (s : Triple) : Triple :=
  mixLayer Config.mds (sboxLayer r (arcLayer rc r s))

/-- Rounds 0 .. n−1, in order. -/
def poseidonRounds (rc : Nat → Fin 3 → Nat) : Nat → Triple → Triple
  | 0, s => s
  | n + 1, s => poseidonRound rc n (poseidonRounds rc n s)

/-- PERM: all N_ROUNDS rounds (44_poseidon R108, R121). -/
def poseidonPerm (rc : Nat → Fin 3 → Nat) (s : Triple) : Triple := poseidonRounds rc Config.nRounds s

/-- The linear layer without a multiplier, for the default matrix (44_poseidon R118). -/
def mixPath (s : Triple) : Triple :=
  let p := Config.pStark
  ⟨addMod p (addMod p (addMod p (addMod p s.e0 s.e0) s.e0) s.e1) s.e2,
   addMod p (subMod p s.e0 s.e1) s.e2,
   subMod p (addMod p s.e0 s.e1) (addMod p s.e2 s.e2)⟩

/-! ## The same permutation on standard values: what the residues represent (44_poseidon R108, R109; 95_test_vectors P5) -/

/-- The standard values a triple of residues represents (00_scope R10). -/
def tripleVal (s : Triple) : Triple := tripleOf fun i => val Config.pStark (tripleGet s i)

/-- Each standard value plus its round constant (44_poseidon R109). -/
def stdArc (rc : Nat → Fin 3 → Nat) (r : Nat) (s : Triple) : Triple :=
  tripleOf fun i => (tripleGet s i + rc r i) % Config.pStark

/-- x ↦ x^POS_ALPHA on the elements of SB(r) (44_poseidon R110, R111). -/
def stdSbox (r : Nat) (s : Triple) : Triple :=
  tripleOf fun i =>
    if inSbox r i then tripleGet s i ^ Config.posAlpha % Config.pStark else tripleGet s i

/-- The matrix-vector product (44_poseidon R117). -/
def stdMix (m : Fin 3 → Fin 3 → Nat) (s : Triple) : Triple :=
  tripleOf fun i => (m i 0 * s.e0 + m i 1 * s.e1 + m i 2 * s.e2) % Config.pStark

/-- One round on standard values. -/
def stdRound (rc : Nat → Fin 3 → Nat) (r : Nat) (s : Triple) : Triple :=
  stdMix Config.mds (stdSbox r (stdArc rc r s))

/-- Rounds 0 .. n−1 on standard values. -/
def stdRounds (rc : Nat → Fin 3 → Nat) : Nat → Triple → Triple
  | 0, s => s
  | n + 1, s => stdRound rc n (stdRounds rc n s)

/-- `poseidon_permute(a, b, c) -> (a', b', c')` (44_poseidon R121). -/
def stdPerm (rc : Nat → Fin 3 → Nat) (s : Triple) : Triple := stdRounds rc Config.nRounds s

end Sys2Proof.Machine
end

