-- ==== Sys2Proof/Machine/Poseidon.lean ====
section
/-! DEFINITION. PARC, PSBOX, PMDS, PRND and PPERM (44_poseidon). Every one works in the STARK field. -/

namespace Sys2Proof.Machine

/-- s <- (F[base], F[base+1], F[base+2]) (10_state R18). -/
def State.triple (s : State) (base : Reg) : Triple :=
  ⟨s.operand base, s.operand (base + 1), s.operand (base + 2)⟩

/-- check_triple(): the legality of the operands, the three valid bits, the three ranges, in this order (44_poseidon, the
common checks; 60_exceptions R128). An Instr that no legal word decodes to is answered as illegal (assumption 8). -/
def State.checkTriple (s : State) (base : Reg) (roundOk : Bool) : Status :=
  let p := Config.pStark
  verdict (!(tripleFits base && roundOk))
    (!s.valid base || !s.valid (base + 1) || !s.valid (base + 2))
    (!isFelt p (s.operand base) || !isFelt p (s.operand (base + 1)) || !isFelt p (s.operand (base + 2)))
    false

/-- The end of a Poseidon command: on OK all three registers are written together, on any error none (20_memory R49). -/
def State.finishTriple (s : State) (st : Status) (base : Reg) (t : Triple) : State :=
  if st = .ok then
    (((s.writeReg base (BitVec.ofNat 256 t.e0)).writeReg (base + 1) (BitVec.ofNat 256 t.e1)).writeReg (base + 2)
      (BitVec.ofNat 256 t.e2)).respond .ok 0
  else s.raise st

/-- 44_poseidon R113. -/
def execParc (base : Reg) (r : BitVec 8) (s : State) : Result :=
  .next (s.finishTriple (s.checkTriple base (roundFits r)) base (arcLayer Config.rc r.toNat (s.triple base)))

/-- 44_poseidon R115. -/
def execPsbox (base : Reg) (r : BitVec 8) (s : State) : Result :=
  .next (s.finishTriple (s.checkTriple base (roundFits r)) base (sboxLayer r.toNat (s.triple base)))

/-- 44_poseidon R117. -/
def execPmds (base : Reg) (s : State) : Result :=
  .next (s.finishTriple (s.checkTriple base true) base (mixLayer Config.mds (s.triple base)))

/-- 44_poseidon R119. -/
def execPrnd (base : Reg) (r : BitVec 8) (s : State) : Result :=
  .next (s.finishTriple (s.checkTriple base (roundFits r)) base (poseidonRound Config.rc r.toNat (s.triple base)))

/-- 44_poseidon R121. -/
def execPperm (base : Reg) (s : State) : Result :=
  .next (s.finishTriple (s.checkTriple base true) base (poseidonPerm Config.rc (s.triple base)))

end Sys2Proof.Machine
end

