-- ==== Sys2Proof/Machine/Dispatch.lean ====
section
/-! DEFINITION. The dispatch from a command to its meaning, one arm for each row of the opcode table (30_encoding R59). -/

namespace Sys2Proof.Machine

def exec (i : Instr) (s : State) : Host.Outcome State Fault Refusal :=
  match i with
  | .fld rd ord => Sys2Proof.Machine.execFld rd ord s
  | .fst rs1 ord => Sys2Proof.Machine.execFst rs1 ord s
  | .fconst f rd k => Sys2Proof.Machine.execFconst f rd k s
  | .tomont f rd rs1 => Sys2Proof.Machine.execTomont f rd rs1 s
  | .frommont f rd rs1 => Sys2Proof.Machine.execFrommont f rd rs1 s
  | .fadd f rd rs1 rs2 => Sys2Proof.Machine.execFadd f rd rs1 rs2 s
  | .fsub f rd rs1 rs2 => Sys2Proof.Machine.execFsub f rd rs1 rs2 s
  | .fmul f rd rs1 rs2 => Sys2Proof.Machine.execFmul f rd rs1 rs2 s
  | .fredc f rd rs1 rs2 => Sys2Proof.Machine.execFredc f rd rs1 rs2 s
  | .finv f rd rs1 => Sys2Proof.Machine.execFinv f rd rs1 s
  | .fdiv f rd rs1 rs2 => Sys2Proof.Machine.execFdiv f rd rs1 rs2 s
  | .parc base r => Sys2Proof.Machine.execParc base r s
  | .psbox base r => Sys2Proof.Machine.execPsbox base r s
  | .pmds base => Sys2Proof.Machine.execPmds base s
  | .prnd base r => Sys2Proof.Machine.execPrnd base r s
  | .pperm base => Sys2Proof.Machine.execPperm base s

end Sys2Proof.Machine
end

