-- ==== Sys2Proof/Machine/Edges.lean ====
section
/-! DEFINITION. One rising edge of the block (20_memory R40 to R43, 70_reset R143 to R145). -/

namespace Sys2Proof.Machine

/-- The end of the command in flight: CUR.W is decoded and runs, or ends with E_ILLEGAL before any register is read
(30_encoding R72). -/
def runCurrent (s : State) : Result :=
  match decode s.curW with
  | .ok i => exec i s
  | .error _ => .next (s.raise .illegal)

/-- One rising edge: reset wins over everything (70_reset R145); else the ports act, and a command that was in flight
before the edge completes when its LAT has run out (20_memory R43). -/
def edgeStep (e : Edge) (s : State) : Result :=
  if e.rst then .next s.resetEdge
  else if s.busy && e.done then runCurrent (s.portEdge e)
  else .next (s.portEdge e)

/-- The edges that make the very next step complete the command in flight. -/
def quietFirst : List Edge → List Edge
  | [] => []
  | es => Edge.quiet :: es

/-- `s` with a command word latched in CUR and in flight, its response slot free, and a quiet edge next, so that the next
step runs it; CUR.D stays (assumption 10). -/
def latchWord (s : State) (w : CmdWord) : State :=
  { s with curW := w, busy := true, rspValid := false, edges := quietFirst s.edges }

end Sys2Proof.Machine
end

