-- ==== Sys2Proof/Machine/Step.lean ====
section
/-! DEFINITION. The step: one rising edge of `clk`. -/

namespace Sys2Proof.Machine

/-- The next rising edge happens. -/
def step (s : State) : Host.Outcome State Fault Refusal := edgeStep s.nextEdge s.dropEdge

/-- `s` with a word of the opcode table where the next step takes the command it runs: CUR, in flight. -/
def State.withFetchWord (s : State) (nbits w : Nat) : State := latchWord s (BitVec.ofNat 32 (w % 2 ^ nbits))

end Sys2Proof.Machine
end

