-- ==== Sys2Proof/Machine/Program.lean ====
section
/-! DEFINITION. How a host runs a program: each command presented, completed, and its response taken (20_memory R42,
95_test_vectors L3), and the pseudo-instructions with their expansions (30_encoding R75). -/

namespace Sys2Proof.Machine

/-- A command as the host presents it: the command, and the data word on `cmd_data` (30_encoding R57). -/
abbrev Command := Instr × Word

/-- The three edges of one command: accepted, completed, response taken. -/
def commandEdges (c : Command) : List Edge :=
  [{ Edge.quiet with cmdValid := true, cmdWord := encode c.1, cmdData := c.2 },
   Edge.quiet,
   { Edge.quiet with rspReady := true }]

/-- The edges of a straight-line program. -/
def programEdges (cs : List Command) : List Edge := cs.flatMap commandEdges

/-- What one command does, from the state before it is accepted to the state after its response is taken. -/
def issue (c : Command) (s : State) : Result :=
  match exec c.1 (s.accept (encode c.1) c.2) with
  | .next t => .next t.takeRsp
  | .fault r => .fault r
  | .refused r => .refused r

/-- A sequence of commands, each waiting for the response of the one before. -/
def issueAll : List Command → State → Result
  | [], s => .next s
  | c :: cs, s =>
    match issue c s with
    | .next t => issueAll cs t
    | .fault r => .fault r
    | .refused r => .refused r

/-- The pseudo-instructions (30_encoding R75). -/
inductive Pseudo where
  | fzero (f : PrimeField) (fd : Reg)
  | fone (f : PrimeField) (fd : Reg)
  | fsqr (f : PrimeField) (fd fs : Reg)
  | fdbl (f : PrimeField) (fd fs : Reg)
  | fneg (f : PrimeField) (fd fs : Reg)
  | fmov (f : PrimeField) (fd fs : Reg)
  | fromU64 (f : PrimeField) (fd : Reg) (v : BitVec 64)
  | fromBytes (f : PrimeField) (ord : ByteOrder) (fd : Reg) (data : Word)
  | toBytes (f : PrimeField) (ord : ByteOrder) (fs ft : Reg)
  | poseidon (fb : Reg)
  deriving DecidableEq, Repr

/-- The constraint column of 30_encoding R75, and the triple's base. -/
def pseudoOk : Pseudo → Bool
  | .fzero _ _ | .fone _ _ | .fsqr _ _ _ | .fdbl _ _ _ => true
  | .fneg _ fd fs => decide (fd ≠ fs)
  | .fmov _ fd fs => decide (fd ≠ fs)
  | .fromU64 _ _ _ | .fromBytes _ _ _ _ | .toBytes _ _ _ _ => true
  | .poseidon fb => tripleFits fb

/-- The expansion column of 30_encoding R75; a command that ignores its data word gets 0. -/
def pseudoExpand : Pseudo → List Command
  | .fzero f fd => [(.fconst f fd .zero, 0)]
  | .fone f fd => [(.fconst f fd .one, 0)]
  | .fsqr f fd fs => [(.fmul f fd fs fs, 0)]
  | .fdbl f fd fs => [(.fadd f fd fs fs, 0)]
  | .fneg f fd fs => [(.fconst f fd .zero, 0), (.fsub f fd fd fs, 0)]
  | .fmov f fd fs => [(.fconst f fd .zero, 0), (.fadd f fd fd fs, 0)]
  | .fromU64 f fd v => [(.fld fd .le, v.setWidth 256), (.tomont f fd fd, 0)]
  | .fromBytes f ord fd data => [(.fld fd ord, data), (.tomont f fd fd, 0)]
  | .toBytes f ord fs ft => [(.frommont f ft fs, 0), (.fst ft ord, 0)]
  | .poseidon fb => [(.pperm fb, 0)]

end Sys2Proof.Machine
end

