-- ==== Sys2Proof/Machine/Timed.lean ====
section
/-! DEFINITION. The block with its latencies: the same edges as `step`, with the completion of a command fixed by LAT
(70_reset R152, R153). The block's own state holds no time (10_state R36), so the count stands beside it, not in it. -/

namespace Sys2Proof.Machine

/-- The block, and how many edges the command in flight still needs. -/
structure TimedState where
  core : State
  left : Nat
  deriving DecidableEq, Repr

/-- The edges from acceptance to the response: LAT(op) for a legal word, whatever its operands and its status; an illegal
word's response depends on the word alone and may come earlier, never later (70_reset R152, R153). -/
def wordLatency (w : CmdWord) : Nat :=
  if legal w then Config.latency (opField w)
  else min (Config.illegalLatencyLessOne w + 1) (Config.latency (opField w))

/-- A command is accepted at an edge with these pins (20_memory R40). -/
def acceptsAt (p : Pins) (s : State) : Bool := p.cmdValid && s.cmdReady p.rst

/-- One rising edge: the command in flight completes when its count runs out (20_memory R43). -/
def timedEdge (p : Pins) (t : TimedState) : Host.Outcome TimedState Fault Refusal :=
  match edgeStep { p with done := decide (t.left ≤ 1) } t.core with
  | .next s => .next { core := s, left := if acceptsAt p t.core then wordLatency p.cmdWord else t.left - 1 }
  | .fault r => .fault r
  | .refused r => .refused r

/-- The edges with these pins, in order. -/
def timedRun : List Pins → TimedState → Host.Outcome TimedState Fault Refusal
  | [], t => .next t
  | p :: ps, t =>
    match timedEdge p t with
    | .next t => timedRun ps t
    | .fault r => .fault r
    | .refused r => .refused r

end Sys2Proof.Machine
end

