-- ==== Sys2Proof/Safety.lean ====
section
/-! DEFINITION. The terms claims are stated in: what a command that completed, or ended with an error, leaves; the invariant of
the block; what no command can see; and what a run did. Nothing here is used by a meaning. -/

namespace Sys2Proof.Machine

/-- The command in flight ended with this response, and nothing besides F and V may differ otherwise
(20_memory R43, R50). -/
structure Ended (s t : State) (status : BitVec 4) (data : Word) : Prop where
  busy : t.busy = false
  rspValid : t.rspValid = true
  rspStatus : t.rspStatus = status
  rspData : t.rspData = data
  curW : t.curW = s.curW
  curD : t.curD = s.curD
  edges : t.edges = s.edges
  freeCtr : t.freeCtr = s.freeCtr

/-- Every register outside the list keeps its value and its valid bit. -/
def KeepsRegs (s t : State) (except : List Reg) : Prop :=
  ∀ j : Reg, j ∉ except → t.F[j] = s.F[j] ∧ t.V[j] = s.V[j]

/-- The command completed with OK and wrote `y` to `rd`, and nothing else (10_state R22, 20_memory R50). -/
structure Wrote (s t : State) (rd : Reg) (y : Nat) : Prop where
  value : t.F[rd].toNat = y
  valid : t.V[rd] = true
  frame : KeepsRegs s t [rd]
  ended : Ended s t 0 0

/-- The command completed with OK and wrote the triple at `base`, and nothing else. -/
structure WroteTriple (s t : State) (base : Reg) (y : Triple) : Prop where
  value0 : t.F[base].toNat = y.e0
  value1 : t.F[base + 1].toNat = y.e1
  value2 : t.F[base + 2].toNat = y.e2
  valid : ∀ j ∈ tripleRegs base, t.V[j] = true
  frame : KeepsRegs s t (tripleRegs base)
  ended : Ended s t 0 0

/-- The command completed with OK, wrote no register and answered with `data`. -/
structure Answered (s t : State) (data : Word) : Prop where
  frame : KeepsRegs s t []
  ended : Ended s t 0 data

/-- The command ended with an error: no register and no valid bit changed, and the data is 0 (60_exceptions R127). -/
structure Failed (s t : State) (status : BitVec 4) : Prop where
  frame : KeepsRegs s t []
  ended : Ended s t status 0

/-- The three registers of a triple are valid and hold felts of the STARK field. -/
structure TripleReady (s : State) (base : Reg) : Prop where
  fits : base.val ≤ 5
  valid : ∀ j ∈ tripleRegs base, s.V[j] = true
  felt : ∀ j ∈ tripleRegs base, s.F[j].toNat < Config.pStark

/-- Every register the command reads is valid. -/
def ReadsValid (i : Instr) (s : State) : Prop := ∀ j ∈ instrReads i, s.V[j] = true

/-- Every felt operand of the command is below the modulus of its field. -/
def FeltsInRange (i : Instr) (s : State) : Prop :=
  ∀ f, instrField i = some f → ∀ j ∈ instrFelts i, s.F[j].toNat < Config.modulus f

/-- The command divides by zero, or inverts it. -/
def DividesByZero (i : Instr) (s : State) : Prop := ∃ j, instrDivisor i = some j ∧ s.F[j].toNat = 0

/-- The invariant of the block: no response waits while a command is in flight (20_memory R42, R43), RSP_STATUS holds one of
the five codes (60_exceptions R125), and an error's response data is 0 (60_exceptions R127). -/
structure StateInv (s : State) : Prop where
  slot : s.busy = true → s.rspValid = false
  status : s.rspStatus.toNat ≤ 4
  errorData : s.rspStatus ≠ 0 → s.rspData = 0

/-- Two states no command and no port can tell apart: equal but for the contents of registers whose valid bit is 0
(10_state R21, R23; 93 U1) and of CUR while nothing is in flight (93 U3). -/
structure SameVisible (s t : State) : Prop where
  V : t.V = s.V
  F : ∀ j : Reg, s.V[j] = true → t.F[j] = s.F[j]
  busy : t.busy = s.busy
  cur : s.busy = true → t.curW = s.curW ∧ t.curD = s.curD
  rspValid : t.rspValid = s.rspValid
  rspStatus : t.rspStatus = s.rspStatus
  rspData : t.rspData = s.rspData
  edges : t.edges = s.edges
  freeCtr : t.freeCtr = s.freeCtr

/-- A command is accepted at the next edge (20_memory R40). -/
def State.acceptsNow (s : State) : Bool := s.nextEdge.cmdValid && s.cmdReady s.nextEdge.rst

/-- A response is taken at the next edge (20_memory R41). -/
def State.takesNow (s : State) : Bool := s.rspValid && s.nextEdge.rspReady && !s.nextEdge.rst

/-- How many commands are accepted in the next n steps. -/
def acceptedIn : Nat → State → Nat
  | 0, _ => 0
  | n + 1, s =>
    (if s.acceptsNow then 1 else 0) +
      match step s with
      | .next t => acceptedIn n t
      | .fault _ => 0
      | .refused _ => 0

/-- The responses the host takes in the next n steps, in order: (status, data). -/
def responsesIn : Nat → State → List (BitVec 4 × Word)
  | 0, _ => []
  | n + 1, s =>
    (if s.takesNow then [(s.rspStatus, s.rspData)] else []) ++
      match step s with
      | .next t => responsesIn n t
      | .fault _ => []
      | .refused _ => []

/-- Commands accepted whose response has not been taken yet. -/
def State.pending (s : State) : Nat := (if s.busy then 1 else 0) + (if s.rspValid then 1 else 0)

/-- No error occurred in the next n steps: every response taken has the status OK (60_exceptions R142). -/
def ErrorFree (n : Nat) (s : State) : Prop := ∀ r ∈ responsesIn n s, r.1 = 0

/-- The end of a run: the host has no further command to present, and every response has been taken (70_reset R157). -/
def State.atRest (s : State) : Bool :=
  s.edges.all (fun e => !e.cmdValid) && !s.busy && !s.rspValid

/-- Commands one after another, as long as each completes with OK; `none` when one does not. -/
def runOk : List Instr → State → Option State
  | [], s => some s
  | i :: is, s =>
    match exec i s with
    | .next t => if t.rspStatus = 0 then runOk is t else none
    | .fault _ => none
    | .refused _ => none

end Sys2Proof.Machine
end

