-- ==== Sys2Proof/Certificates/Slice0/Obligations.lean ====
section
/-! DEFINITION. The statements for the provers. In every statement P is `Config.modulus f`, R is `Config.radix`, and the
operands are read from the state the command started in, so a destination may be one of the sources (10_state R38). -/

open Sys2Proof Sys2Proof.Machine

/-! ## Encoding -/

/-- Words of 95_test_vectors L2.1 and of 30_encoding R76, one or more of every format, decode to their commands. -/
def Obligations.SpecWordsDecode : Prop :=
  decodeTableWord 32 0x00000000 = some (.fld 0 .le) ∧
  decodeTableWord 32 0x08300000 = some (.fst 3 .le) ∧
  decodeTableWord 32 0x14000003 = some (.fconst .stark 0 .modulus) ∧
  decodeTableWord 32 0x1C900000 = some (.tomont .stark 1 1) ∧
  decodeTableWord 32 0x3D020000 = some (.fmul .stark 2 0 1) ∧
  decodeTableWord 32 0x5C00005A = some (.parc 0 90) ∧
  decodeTableWord 32 0x7E800000 = some (.pperm 5) ∧
  decodeTableWord 32 0x7F000000 = none ∧
  decodeTableWord 32 0x80000000 = none

/-- Decoding the word of a command gives the command back, every operand at every value (30_encoding R57, R76). -/
def Obligations.DecodeOfEncode : Prop :=
  ∀ i : Instr, i.wf = true → decode (encode i) = .ok i

/-- A word that decodes is the word of the command it decodes to, and that command is well formed: every legal word has one
meaning, and no bit of it is ignored (30_encoding R62, R68, R76). -/
def Obligations.EncodeOfDecode : Prop :=
  ∀ (w : CmdWord) (i : Instr), decode w = .ok i → encode i = w ∧ i.wf = true

/-- Decoding is total, and it succeeds exactly on the legal words (30_encoding R72). -/
def Obligations.DecodesExactlyLegalWords : Prop :=
  ∀ w : CmdWord, (legal w = true ∧ ∃ i, decode w = .ok i) ∨ (legal w = false ∧ ∃ e, decode w = .error e)

/-- The rows of the opcode map do not overlap: no word has the encoding shape of two rows, and a legal word has the shape of
exactly one (30_encoding R73). -/
def Obligations.OpcodeRowsAreDisjoint : Prop :=
  (∀ (a b : Op) (w : CmdWord), w &&& a.mask = a.fixedBits → w &&& b.mask = b.fixedBits → a = b) ∧
  ∀ w : CmdWord, legal w = true → ∃! a : Op, w &&& a.mask = a.fixedBits

/-! ## Reset, the ports, the step -/

/-- An edge with rst = 1 clears the valid bits, BUSY and the response registers, whatever was in flight or waiting, reads
nothing of the other pins, and leaves the block ready for a command once rst is 0 (70_reset R143 to R145, R156). -/
def Obligations.ResetEdgeClears : Prop :=
  ∀ (s : State) (e : Edge), e.rst = true → s.cmdReady e.rst = false ∧
    ∃ t, edgeStep e s = .next t ∧ (∀ j : Reg, t.V[j] = false) ∧ t.busy = false ∧ t.rspValid = false ∧
      t.rspStatus = 0 ∧ t.rspData = 0 ∧ t.edges = s.edges ∧ t.cmdReady false = true

/-- The state after reset is idle, with every valid bit and every response register cleared (10_state R35); whatever edges the
host has in store, the run has ended there exactly when none of them presents a command (70_reset R157; that State.reset itself
stores no edge is the model's choice, assumptions 1 and 10, and is not used); and any command that reads a register ends there
with E_UNINIT (95_test_vectors S1). -/
def Obligations.ResetStateIsIdle : Prop :=
  (∀ j : Reg, State.reset.V[j] = false) ∧ State.reset.busy = false ∧ State.reset.rspValid = false ∧
  State.reset.rspStatus = 0 ∧ State.reset.rspData = 0 ∧ State.reset.cmdReady false = true ∧
  (∀ es : List Edge, ({ State.reset with edges := es } : State).atRest = true ↔ ∀ e ∈ es, e.cmdValid = false) ∧
  ∀ i : Instr, i.wf = true → instrReads i ≠ [] → ∃ t, exec i State.reset = .next t ∧ Failed State.reset t 4

/-- At an edge without reset: a command presented while the block is idle is latched in CUR and in flight after the edge, and
nothing else changes; while a response waits no command is accepted, and taking the response only clears RSP_VALID; while a
command is in flight and its latency has not run out, nothing changes (20_memory R40, R41, R42; 10_state R24, R25). -/
def Obligations.PortsFollowTheHandshake : Prop :=
  ∀ (s : State) (e : Edge), e.rst = false →
    (s.busy = false → s.rspValid = false → edgeStep e s =
      .next (if e.cmdValid then { s with curW := e.cmdWord, curD := e.cmdData, busy := true } else s)) ∧
    (s.busy = false → s.rspValid = true →
      edgeStep e s = .next (if e.rspReady then { s with rspValid := false } else s)) ∧
    (s.busy = true → s.rspValid = false → e.done = false → edgeStep e s = .next s)

/-- With nothing presented and nothing taken, a block that has nothing in flight does not change (60_exceptions R140;
70_reset R155: a host that never takes a response leaves it with no further step). -/
def Obligations.NothingHappensWithoutTheHost : Prop :=
  ∀ s : State, s.edges = [] → s.busy = false → step s = .next s

/-- A step runs the decoded command: with a command in flight, its word legal and its latency run out, the step is `exec` of
the decoded command on the state with that edge taken off the list (20_memory R43). -/
def Obligations.StepRunsDecodedCommand : Prop :=
  ∀ (s : State) (i : Instr), s.busy = true → s.rspValid = false → s.nextEdge.rst = false → s.nextEdge.done = true →
    decode s.curW = .ok i → step s = exec i { s with edges := s.edges.tail }

/-- A word with a reserved opcode is illegal, and so is a word with RSV ≠ 0; every illegal word ends with E_ILLEGAL, writes
nothing and returns data 0, for every register state (30_encoding R62, R69, R72; 95_test_vectors L2.1). -/
def Obligations.IllegalWordWritesNothing : Prop :=
  (∀ w : CmdWord, 0x10 ≤ (opField w).toNat → legal w = false) ∧
  (∀ w : CmdWord, rsvField w ≠ 0 → legal w = false) ∧
  ∀ s : State, s.busy = true → s.rspValid = false → s.nextEdge.rst = false → s.nextEdge.done = true →
    legal s.curW = false → ∃ t, step s = .next t ∧ Failed { s with edges := s.edges.tail } t 3

/-- No step faults and none is refused: the behaviour on every word and every state is a next state (60_exceptions R142). -/
def Obligations.EveryStepAnswers : Prop :=
  ∀ s : State, ∃ t, step s = .next t

/-- The model's own hook: the step after `withFetchWord` runs the decoded command on that state, from every state whose host
has nothing pending, the reset state among them (assumption 10). -/
def Obligations.FetchedWordRunsNext : Prop :=
  ∀ (s : State) (w : Nat) (i : Instr), s.edges = [] → decodeTableWord 32 w = some i →
    step (s.withFetchWord 32 w) = exec i (s.withFetchWord 32 w)

/-! ## What each command writes -/

/-- FLD stores the integer of the data word's bytes, unreduced, in either byte order (40_load_convert R77, 20_memory R44,
R45). -/
def Obligations.FldStoresTheInteger : Prop :=
  ∀ (rd : Reg) (ord : ByteOrder) (s : State), ∃ t, exec (.fld rd ord) s = .next t ∧
    Wrote s t rd (match ord with
      | .le => ∑ k ∈ Finset.range 32, s.curD.toNat / 256 ^ k % 256 * 256 ^ k
      | .be => ∑ k ∈ Finset.range 32, s.curD.toNat / 256 ^ k % 256 * 256 ^ (31 - k))

/-- FST answers with the register's bytes, byte k of the answer being byte k, or byte 31 − k, of the register, and writes
nothing (40_load_convert R78, 20_memory R46). -/
def Obligations.FstAnswersTheBytes : Prop :=
  ∀ (rs1 : Reg) (ord : ByteOrder) (s : State), s.V[rs1] = true → ∃ t d, exec (.fst rs1 ord) s = .next t ∧ Answered s t d ∧
    ∀ k : Nat, k < 32 → d.toNat / 256 ^ k % 256 = match ord with
      | .le => s.F[rs1].toNat / 256 ^ k % 256
      | .be => s.F[rs1].toNat / 256 ^ (31 - k) % 256

/-- FCONST writes 0, R mod P, R² mod P or P (40_load_convert R79, 10_state R29). -/
def Obligations.FconstWritesTheConstant : Prop :=
  ∀ (f : PrimeField) (rd : Reg) (k : ConstIdx) (s : State), ∃ t, exec (.fconst f rd k) s = .next t ∧
    Wrote s t rd (match k with
      | .zero => 0
      | .one => Config.radix % Config.modulus f
      | .r2 => Config.radix ^ 2 % Config.modulus f
      | .modulus => Config.modulus f)

/-- TOMONT accepts every 256-bit pattern and writes its Montgomery residue (40_load_convert R80). -/
def Obligations.TomontReducesAnyPattern : Prop :=
  ∀ (f : PrimeField) (rd rs1 : Reg) (s : State), s.V[rs1] = true → ∃ t, exec (.tomont f rd rs1) s = .next t ∧
    Wrote s t rd (s.F[rs1].toNat * Config.radix % Config.modulus f)

/-- FROMMONT writes the one value below P whose product with R is the operand modulo P (40_load_convert R81). -/
def Obligations.FrommontWritesTheStandardValue : Prop :=
  ∀ (f : PrimeField) (rd rs1 : Reg) (s : State), s.V[rs1] = true → s.F[rs1].toNat < Config.modulus f →
    ∃ t y, exec (.frommont f rd rs1) s = .next t ∧ Wrote s t rd y ∧ y < Config.modulus f ∧
      y * Config.radix % Config.modulus f = s.F[rs1].toNat

/-- FADD and FSUB write the sum and the difference modulo P, the difference the least non-negative residue
(41_add_sub R87, R89). -/
def Obligations.FaddFsubWriteSumAndDifference : Prop :=
  ∀ (f : PrimeField) (rd rs1 rs2 : Reg) (s : State), s.V[rs1] = true → s.V[rs2] = true →
    s.F[rs1].toNat < Config.modulus f → s.F[rs2].toNat < Config.modulus f →
    (∃ t, exec (.fadd f rd rs1 rs2) s = .next t ∧
      Wrote s t rd ((s.F[rs1].toNat + s.F[rs2].toNat) % Config.modulus f)) ∧
    ∃ t, exec (.fsub f rd rs1 rs2) s = .next t ∧
      Wrote s t rd (((s.F[rs1].toNat : Int) - (s.F[rs2].toNat : Int)) % (Config.modulus f : Int)).toNat

/-- FMUL writes the one residue whose product with R is the product of the operands modulo P (42_montgomery R93). -/
def Obligations.FmulWritesTheMontgomeryProduct : Prop :=
  ∀ (f : PrimeField) (rd rs1 rs2 : Reg) (s : State), s.V[rs1] = true → s.V[rs2] = true →
    s.F[rs1].toNat < Config.modulus f → s.F[rs2].toNat < Config.modulus f →
    ∃ t y, exec (.fmul f rd rs1 rs2) s = .next t ∧ Wrote s t rd y ∧ y < Config.modulus f ∧
      y * Config.radix % Config.modulus f = s.F[rs1].toNat * s.F[rs2].toNat % Config.modulus f

/-- FREDC writes the one residue whose product with R is T = hi·R + lo modulo P; the low half is any pattern
(42_montgomery R94). -/
def Obligations.FredcReducesTheWideValue : Prop :=
  ∀ (f : PrimeField) (rd rs1 rs2 : Reg) (s : State), s.V[rs1] = true → s.V[rs2] = true →
    s.F[rs2].toNat < Config.modulus f →
    ∃ t y, exec (.fredc f rd rs1 rs2) s = .next t ∧ Wrote s t rd y ∧ y < Config.modulus f ∧
      y * Config.radix % Config.modulus f =
        (s.F[rs2].toNat * Config.radix + s.F[rs1].toNat) % Config.modulus f

/-- FINV of a nonzero felt writes the one residue whose product with it is R² modulo P (43_inverse_div R102). -/
def Obligations.FinvWritesTheInverse : Prop :=
  ∀ (f : PrimeField) (rd rs1 : Reg) (s : State), s.V[rs1] = true → s.F[rs1].toNat < Config.modulus f →
    s.F[rs1].toNat ≠ 0 →
    ∃ t y, exec (.finv f rd rs1) s = .next t ∧ Wrote s t rd y ∧ y < Config.modulus f ∧
      y * s.F[rs1].toNat % Config.modulus f = Config.radix ^ 2 % Config.modulus f

/-- FDIV by a nonzero felt writes the one residue whose product with the divisor is the dividend times R modulo P
(43_inverse_div R104). -/
def Obligations.FdivWritesTheQuotient : Prop :=
  ∀ (f : PrimeField) (rd rs1 rs2 : Reg) (s : State), s.V[rs1] = true → s.V[rs2] = true →
    s.F[rs1].toNat < Config.modulus f → s.F[rs2].toNat < Config.modulus f → s.F[rs2].toNat ≠ 0 →
    ∃ t y, exec (.fdiv f rd rs1 rs2) s = .next t ∧ Wrote s t rd y ∧ y < Config.modulus f ∧
      y * s.F[rs2].toNat % Config.modulus f = s.F[rs1].toNat * Config.radix % Config.modulus f

/-- PARC adds RC[r][i] to the standard value of each element (44_poseidon R109, R113). -/
def Obligations.ParcAddsRoundConstants : Prop :=
  ∀ (base : Reg) (r : BitVec 8) (s : State), TripleReady s base → r.toNat < Config.nRounds →
    ∃ t y, exec (.parc base r) s = .next t ∧ WroteTriple s t base y ∧ (∀ i, tripleGet y i < Config.pStark) ∧
      tripleVal y = stdArc Config.rc r.toNat (tripleVal (s.triple base))

/-- PSBOX cubes the standard value of every element in rounds 0 .. 3 and 87 .. 90, and of the last element alone in rounds
4 .. 86 (44_poseidon R110, R111, R115). -/
def Obligations.PsboxCubesTheDesignatedElements : Prop :=
  ∀ (base : Reg) (r : BitVec 8) (s : State), TripleReady s base → r.toNat < Config.nRounds →
    ∃ t y, exec (.psbox base r) s = .next t ∧ WroteTriple s t base y ∧
      ∀ i, tripleGet y i < Config.pStark ∧
        (if r.toNat < 4 ∨ 87 ≤ r.toNat ∨ i = 2 then
          val Config.pStark (tripleGet y i) = val Config.pStark (tripleGet (s.triple base) i) ^ 3 % Config.pStark
        else tripleGet y i = tripleGet (s.triple base) i)

/-- PMDS writes 3·s0 + s1 + s2, s0 − s1 + s2 and s0 + s1 − 2·s2 modulo P, on the residues themselves
(44_poseidon R117). -/
def Obligations.PmdsMultipliesByTheMatrix : Prop :=
  ∀ (base : Reg) (s : State), TripleReady s base →
    ∃ t y, exec (.pmds base) s = .next t ∧ WroteTriple s t base y ∧
      (y.e0 : Int) = (3 * (s.triple base).e0 + (s.triple base).e1 + (s.triple base).e2 : Int) % Config.pStark ∧
      (y.e1 : Int) = ((s.triple base).e0 - (s.triple base).e1 + (s.triple base).e2 : Int) % Config.pStark ∧
      (y.e2 : Int) = ((s.triple base).e0 + (s.triple base).e1 - 2 * (s.triple base).e2 : Int) % Config.pStark

/-- PRND takes the standard values of the triple through one round of the permutation (44_poseidon R108, R119). -/
def Obligations.PrndRunsOneRound : Prop :=
  ∀ (base : Reg) (r : BitVec 8) (s : State), TripleReady s base → r.toNat < Config.nRounds →
    ∃ t y, exec (.prnd base r) s = .next t ∧ WroteTriple s t base y ∧ (∀ i, tripleGet y i < Config.pStark) ∧
      tripleVal y = stdRound Config.rc r.toNat (tripleVal (s.triple base))

/-- PPERM takes the standard values of the triple through all 91 rounds: the source's `poseidon_permute`
(44_poseidon R121). -/
def Obligations.PpermRunsThePermutation : Prop :=
  ∀ (base : Reg) (s : State), TripleReady s base →
    ∃ t y, exec (.pperm base) s = .next t ∧ WroteTriple s t base y ∧ (∀ i, tripleGet y i < Config.pStark) ∧
      tripleVal y = stdPerm Config.rc (tripleVal (s.triple base))

/-! ## Errors and what no command does -/

/-- A command that reads an unwritten register ends with E_UNINIT, before any range or zero check (10_state R23,
60_exceptions R126, R128). -/
def Obligations.UnwrittenOperandIsUninit : Prop :=
  ∀ (i : Instr) (s : State), i.wf = true → ¬ ReadsValid i s → ∃ t, exec i s = .next t ∧ Failed s t 4

/-- With every operand written, a felt operand not below P ends the command with E_RANGE, before the zero check
(10_state R16, 60_exceptions R126, R128). -/
def Obligations.NonCanonicalFeltIsRange : Prop :=
  ∀ (i : Instr) (s : State), i.wf = true → ReadsValid i s → ¬ FeltsInRange i s → ∃ t, exec i s = .next t ∧ Failed s t 2

/-- FINV of zero, and FDIV by zero for every dividend, end with E_DIV0 and write nothing (43_inverse_div R106). -/
def Obligations.DivisionByZeroIsReported : Prop :=
  ∀ (i : Instr) (s : State), ReadsValid i s → FeltsInRange i s → DividesByZero i s →
    ∃ t, exec i s = .next t ∧ Failed s t 1

/-- A well-formed command whose operands are written, in range and nonzero where it divides completes with OK, whatever
response stands from the command before: no error is sticky (60_exceptions R126, R141). -/
def Obligations.CheckedCommandCompletesOk : Prop :=
  ∀ (i : Instr) (s : State), i.wf = true → ReadsValid i s → FeltsInRange i s → ¬ DividesByZero i s →
    ∃ t, exec i s = .next t ∧ t.rspStatus = 0

/-- Every command answers; it either completes with OK and changes no register but those of its row of 10_state R17, which
become valid, or ends with an error and changes no register at all, with data 0; and only FST answers with data
(00_scope R12, 10_state R22, 60_exceptions R127, 20_memory R50). -/
def Obligations.CommandsChangeOnlyTheirDestinations : Prop :=
  ∀ (i : Instr) (s : State), ∃ t, exec i s = .next t ∧ Ended s t t.rspStatus t.rspData ∧
    (t.rspStatus = 0 → KeepsRegs s t (instrWrites i) ∧ ∀ j ∈ instrWrites i, t.V[j] = true) ∧
    (t.rspStatus ≠ 0 → KeepsRegs s t [] ∧ t.rspData = 0) ∧
    (t.rspData ≠ 0 → ∃ rs1 ord, i = .fst rs1 ord)

/-- Every value a field-arithmetic or Poseidon command writes is a canonical residue of the command's field
(10_state R19). -/
def Obligations.ArithmeticResultsAreCanonical : Prop :=
  ∀ (i : Instr) (f : PrimeField) (s t : State), instrField i = some f → (∀ rd k, i ≠ .fconst f rd k) →
    exec i s = .next t → t.rspStatus = 0 → ∀ j ∈ instrWrites i, t.F[j].toNat < Config.modulus f

/-- `cmd_data` has no effect on any command but FLD: with another data word the command ends in the same state but for that
word itself, an illegal word included (30_encoding R67). -/
def Obligations.DataWordIsReadOnlyByFld : Prop :=
  (∀ (i : Instr) (s : State) (d : Word), (∀ rd ord, i ≠ .fld rd ord) →
    ∃ t, exec i s = .next t ∧ exec i { s with curD := d } = .next { t with curD := d }) ∧
  ∀ (s : State) (d : Word), legal s.curW = false →
    ∃ t, runCurrent s = .next t ∧ runCurrent { s with curD := d } = .next { t with curD := d }

/-- No command reads the response of a command before it (10_state R28). -/
def Obligations.NoCommandReadsAnEarlierResponse : Prop :=
  ∀ (i : Instr) (s : State) (v : Bool) (st : BitVec 4) (d : Word),
    exec i { s with rspValid := v, rspStatus := st, rspData := d } = exec i s

/-- Repeating a command whose destination is not one of its sources changes nothing, the response included; the commands of
10_state R17 that write a register they read are the only ones left out (20_memory R50). -/
def Obligations.RepeatingACommandChangesNothing : Prop :=
  ∀ (i : Instr) (s t : State), (∀ j ∈ instrWrites i, j ∉ instrReads i) → exec i s = .next t → exec i t = .next t

/-- No step clears a valid bit but a reset (10_state R22). -/
def Obligations.OnlyResetClearsAValidBit : Prop :=
  ∀ (s t : State) (j : Reg), step s = .next t → s.V[j] = true → t.V[j] = false → s.nextEdge.rst = true

/-- The contents of a register nothing has written are invisible: two states that differ only there, and in CUR while
nothing is in flight, step to two states that differ only there (10_state R21, R23, R35; 93 U1, U3). -/
def Obligations.UnwrittenRegistersAreInvisible : Prop :=
  ∀ s t : State, SameVisible s t →
    ∃ s' t', step s = .next s' ∧ step t = .next t' ∧ SameVisible s' t'

/-- The invariant of the block holds in the state after reset (10_state R35). -/
def Obligations.ResetMeetsTheInvariant : Prop := StateInv State.reset

/-- Every step from a state with the invariant keeps it: no response waits while a command is in flight, RSP_STATUS holds
one of the five codes, and an error's data is 0 (20_memory R42, R43; 60_exceptions R125, R127). -/
def Obligations.EveryStepKeepsTheInvariant : Prop :=
  ∀ s t : State, StateInv s → step s = .next t → StateInv t

/-- Every accepted command produces exactly one response, unless reset intervenes: over any run with no reset edge, the
commands pending at the start and those accepted are the responses taken and the commands pending at the end
(20_memory R41). -/
def Obligations.EveryAcceptedCommandGetsOneResponse : Prop :=
  ∀ (n : Nat) (s t : State), StateInv s → (∀ e ∈ s.edges, e.rst = false) → core.run n s = .next t →
    s.pending + acceptedIn n s = (responsesIn n s).length + t.pending

/-- Every command in flight ends: within one step more than the edges listed, the block is not busy
(20_memory R43, 70_reset R158). -/
def Obligations.CommandInFlightEnds : Prop :=
  ∀ s : State, ∃ n t, n ≤ s.edges.length + 1 ∧ core.run n s = .next t ∧ t.busy = false

/-- With latencies, an accepted command is still in flight, and nothing has changed, at every edge before its LAT, and its
response is there at its LAT, whatever the host does at its pins short of a reset (20_memory R43, 70_reset R152). -/
def Obligations.ResponseComesAtItsLatency : Prop :=
  ∀ (s : State) (p : Pins) (ps : List Pins), s.busy = false → s.rspValid = false → p.rst = false → p.cmdValid = true →
    (∀ q ∈ ps, q.rst = false) → ∀ n : Nat,
    (ps.length < wordLatency p.cmdWord →
      timedRun (p :: ps) ⟨s, n⟩ = .next ⟨s.accept p.cmdWord p.cmdData, wordLatency p.cmdWord - ps.length⟩) ∧
    (ps.length = wordLatency p.cmdWord →
      ∃ t, timedRun (p :: ps) ⟨s, n⟩ = .next t ∧ t.core.busy = false ∧ t.core.rspValid = true)

/-- The three edges of one command, run by the step, are the command: presented, completed, its response taken
(20_memory R40 to R43). -/
def Obligations.CommandRunsThroughThePorts : Prop :=
  ∀ (c : Command) (s : State) (rest : List Edge), c.1.wf = true → s.busy = false → s.rspValid = false →
    core.run 3 { s with edges := commandEdges c ++ rest } = issue c { s with edges := rest }

/-! ## The datapath gives the architectural values -/

/-- The 257-bit adder and the borrowing subtractor give the sum and the difference modulo P (41_add_sub R88, R90). -/
def Obligations.AdderAndSubtractorAreExact : Prop :=
  ∀ (f : PrimeField) (a b : Word), a.toNat < Config.modulus f → b.toNat < Config.modulus f →
    (adderPath (Config.modulus f) a b).toNat = addMod (Config.modulus f) a.toNat b.toNat ∧
    (subtractorPath (Config.modulus f) a b).toNat = subMod (Config.modulus f) a.toNat b.toNat

/-- REDC is exact for every T below P·R: the division by R leaves nothing, its intermediate values fit the widths given, and
its result is the residue T·R⁻¹ (42_montgomery R95, R96, R97). -/
def Obligations.RedcReducesEveryLegalValue : Prop :=
  ∀ (f : PrimeField) (T : Nat), T < Config.modulus f * Config.radix →
    (T + redcM (Config.modulus f) T * Config.modulus f) % Config.radix = 0 ∧
    T + redcM (Config.modulus f) T * Config.modulus f < 2 ^ 513 ∧
    redcU (Config.modulus f) T < 2 * Config.modulus f ∧
    redc (Config.modulus f) T < Config.modulus f ∧
    redc (Config.modulus f) T = T * rInv (Config.modulus f) % Config.modulus f

/-- The conversions, the multiplication and the wide reduction on the reducer give their architectural values
(40_load_convert R82, R83; 42_montgomery R93, R94). -/
def Obligations.ReducerSharesAllConversions : Prop :=
  ∀ (f : PrimeField) (a b : Nat) (x y : Word), a < Config.modulus f → b < Config.modulus f → y.toNat < Config.modulus f →
    redc (Config.modulus f) (x.toNat * fieldConst (Config.modulus f) .r2) = mont (Config.modulus f) x.toNat ∧
    redc (Config.modulus f) a = val (Config.modulus f) a ∧
    redc (Config.modulus f) (a * b) = montMul (Config.modulus f) a b ∧
    redc (Config.modulus f) (y.toNat * Config.radix + x.toNat) = reduceWide (Config.modulus f) x.toNat y.toNat

/-- The word-serial multiplier gives the Montgomery product of every two felts; at each of its four steps both sums, t + a · b_i
and t + m · P, fit six limbs and the second has a zero low limb before the shift; its last value is below 2P
(42_montgomery R98). -/
def Obligations.WordSerialMultiplierIsExact : Prop :=
  ∀ (f : PrimeField) (a b : Nat), a < Config.modulus f → b < Config.modulus f →
    cios (Config.modulus f) a b = montMul (Config.modulus f) a b ∧
    ciosLoop (Config.modulus f) a b 4 < 2 * Config.modulus f ∧
    ∀ i, i < 4 →
      ciosSum a b i (ciosLoop (Config.modulus f) a b i) < 2 ^ 384 ∧
      ciosReduced (Config.modulus f) (ciosSum a b i (ciosLoop (Config.modulus f) a b i)) < 2 ^ 384 ∧
      ciosReduced (Config.modulus f) (ciosSum a b i (ciosLoop (Config.modulus f) a b i)) % 2 ^ 64 = 0

/-- Both inverters the source allows give the residue of the inverse of every nonzero felt, and division is one inversion
followed by one multiplication (43_inverse_div R103, R105). -/
def Obligations.InvertersAgree : Prop :=
  ∀ (f : PrimeField) (a b : Nat), a < Config.modulus f → 0 < b → b < Config.modulus f →
    fermatInverter (Config.modulus f) b = montInv (Config.modulus f) b ∧
    euclidInverter (Config.modulus f) b = montInv (Config.modulus f) b ∧
    montDiv (Config.modulus f) a b = montMul (Config.modulus f) a (montInv (Config.modulus f) b)

/-- The linear layer without a multiplier gives the matrix product (44_poseidon R118). -/
def Obligations.MixNeedsNoMultiplier : Prop :=
  ∀ s : Triple, (∀ i, tripleGet s i < Config.pStark) → mixPath s = mixLayer Config.mds s

/-! ## Laws -/

/-- The laws of addition and subtraction of felts (41_add_sub R91). -/
def Obligations.AdditionLaws : Prop :=
  ∀ (f : PrimeField) (a b c : Nat),
    a < Config.modulus f → b < Config.modulus f → c < Config.modulus f →
    addMod (Config.modulus f) a b = addMod (Config.modulus f) b a ∧
    addMod (Config.modulus f) (addMod (Config.modulus f) a b) c =
      addMod (Config.modulus f) a (addMod (Config.modulus f) b c) ∧
    addMod (Config.modulus f) a (fieldConst (Config.modulus f) .zero) = a ∧
    subMod (Config.modulus f) (addMod (Config.modulus f) a b) b = a

/-- The laws of multiplication of felts (42_montgomery R99). -/
def Obligations.MultiplicationLaws : Prop :=
  ∀ (f : PrimeField) (a b c : Nat),
    a < Config.modulus f → b < Config.modulus f → c < Config.modulus f →
    montMul (Config.modulus f) a (fieldConst (Config.modulus f) .one) = a ∧
    montMul (Config.modulus f) a b = montMul (Config.modulus f) b a ∧
    montMul (Config.modulus f) (montMul (Config.modulus f) a b) c =
      montMul (Config.modulus f) a (montMul (Config.modulus f) b c) ∧
    montMul (Config.modulus f) a (addMod (Config.modulus f) b c) =
      addMod (Config.modulus f) (montMul (Config.modulus f) a b) (montMul (Config.modulus f) a c) ∧
    montMul (Config.modulus f) a 0 = 0 ∧
    montMul (Config.modulus f) (mont (Config.modulus f) 6) (mont (Config.modulus f) 7) = mont (Config.modulus f) 42

/-- The laws of inversion and division (43_inverse_div R107). -/
def Obligations.DivisionLaws : Prop :=
  ∀ (f : PrimeField) (a b c : Nat),
    a < Config.modulus f → 0 < b → b < Config.modulus f → 0 < c → c < Config.modulus f →
    montMul (Config.modulus f) (montDiv (Config.modulus f) a b) b = a ∧
    montMul (Config.modulus f) (montInv (Config.modulus f) b) b = fieldConst (Config.modulus f) .one ∧
    montInv (Config.modulus f) (montInv (Config.modulus f) b) = b ∧
    montDiv (Config.modulus f) a b = montMul (Config.modulus f) a (montInv (Config.modulus f) b) ∧
    montDiv (Config.modulus f) a (fieldConst (Config.modulus f) .one) = a

/-- Loading 32 bytes, converting there and back and storing them returns the bytes of the integer modulo P, from every
state, in either order, and returns the bytes themselves exactly when the integer is below P (40_load_convert R85). -/
def Obligations.ByteRoundTripReducesModP : Prop :=
  ∀ (f : PrimeField) (ord : ByteOrder) (x y : Reg) (d : Word) (s : State),
    ∃ t, issueAll [(.fld x ord, d), (.tomont f x x, 0), (.frommont f y x, 0), (.fst y ord, 0)] s = .next t ∧
      t.rspStatus = 0 ∧
      intOf ord (laneBytes t.rspData) = intOf ord (laneBytes d) % Config.modulus f ∧
      (t.rspData = d ↔ intOf ord (laneBytes d) < Config.modulus f)

/-- The ten pseudo-instructions leave what their names say (30_encoding R75): under the constraint of the constraint column, and,
for one that reads registers, when those are valid and hold felts, which the commands of its expansion ask for
(60_exceptions R126). -/
def Obligations.PseudoInstructionsDoAsNamed : Prop :=
  ∀ (f : PrimeField) (fd fs fb : Reg) (ord : ByteOrder) (d : Word) (v : BitVec 64) (s : State),
    (∃ t, issueAll (pseudoExpand (.fzero f fd)) s = .next t ∧ t.F[fd] = 0 ∧ t.V[fd] = true) ∧
    (∃ t, issueAll (pseudoExpand (.fone f fd)) s = .next t ∧ val (Config.modulus f) t.F[fd].toNat = 1) ∧
    (∃ t, issueAll (pseudoExpand (.fromU64 f fd v)) s = .next t ∧ val (Config.modulus f) t.F[fd].toNat = v.toNat) ∧
    (∃ t, issueAll (pseudoExpand (.fromBytes f ord fd d)) s = .next t ∧
      val (Config.modulus f) t.F[fd].toNat = intOf ord (laneBytes d) % Config.modulus f) ∧
    (s.V[fs] = true → s.F[fs].toNat < Config.modulus f →
      (∃ t, issueAll (pseudoExpand (.fsqr f fd fs)) s = .next t ∧
        val (Config.modulus f) t.F[fd].toNat = val (Config.modulus f) s.F[fs].toNat ^ 2 % Config.modulus f) ∧
      (∃ t, issueAll (pseudoExpand (.fdbl f fd fs)) s = .next t ∧
        t.F[fd].toNat = 2 * s.F[fs].toNat % Config.modulus f) ∧
      (∃ t, issueAll (pseudoExpand (.toBytes f ord fs fd)) s = .next t ∧
        laneBytes t.rspData = bytesOf ord (BitVec.ofNat 256 (val (Config.modulus f) s.F[fs].toNat))) ∧
      (fd ≠ fs →
        (∃ t, issueAll (pseudoExpand (.fneg f fd fs)) s = .next t ∧
          t.F[fd].toNat < Config.modulus f ∧ (t.F[fd].toNat + s.F[fs].toNat) % Config.modulus f = 0) ∧
        ∃ t, issueAll (pseudoExpand (.fmov f fd fs)) s = .next t ∧ t.F[fd] = s.F[fs])) ∧
    (TripleReady s fb →
      ∃ t, issueAll (pseudoExpand (.poseidon fb)) s = .next t ∧
        tripleVal (t.triple fb) = stdPerm Config.rc (tripleVal (s.triple fb)))

/-- PARC r, PSBOX r and PMDS in sequence, when all three complete with OK, leave the triple PRND r leaves
(44_poseidon R120). -/
def Obligations.RoundIsItsThreeLayers : Prop :=
  ∀ (base : Reg) (r : BitVec 8) (s u : State), runOk [.parc base r, .psbox base r, .pmds base] s = some u →
    ∃ t, exec (.prnd base r) s = .next t ∧ t.rspStatus = 0 ∧ t.F = u.F ∧ t.V = u.V

/-- The 91 rounds in order, when all complete with OK, leave the triple PPERM leaves (44_poseidon R122). -/
def Obligations.PermutationIsItsRounds : Prop :=
  ∀ (base : Reg) (s u : State),
    runOk ((List.range 91).map fun r => .prnd base (BitVec.ofNat 8 r)) s = some u →
    ∃ t, exec (.pperm base) s = .next t ∧ t.rspStatus = 0 ∧ t.F = u.F ∧ t.V = u.V

/-- The permutation is a bijection on triples of felts, for every table of round constants (44_poseidon R123). -/
def Obligations.PermutationIsABijection : Prop :=
  ∀ rc : Nat → Fin 3 → Nat,
    Set.BijOn (poseidonPerm rc) {s | ∀ i, tripleGet s i < Config.pStark} {s | ∀ i, tripleGet s i < Config.pStark}
end

