-- ==== Sys2Proof/Laws/Arith.lean ====
section
/-! SUPPORT. What each arithmetic function computes, as an equation in the field ZMod P, and the bounds on its result. A claim
about residues is then an identity of the field, by `eq_of_cast_eq`. -/

namespace Sys2Proof.Laws

open Sys2Proof.Machine

/-! ## The two moduli -/

theorem modulus_prime (f : PrimeField) : (Config.modulus f).Prime := by
  cases f
  · exact Config.genPrime.prime
  · exact starkPrime_prime

theorem modulus_lower (f : PrimeField) : 2 ^ 64 < Config.modulus f := by
  cases f
  · have := Config.genPrime.lower
    simp only [Config.modulus]; omega
  · simp only [Config.modulus]; decide

theorem modulus_upper (f : PrimeField) : Config.modulus f < 2 ^ 256 := by
  cases f
  · exact Config.genPrime.upper
  · simp only [Config.modulus]; decide

/-- What the arithmetic of a modulus needs: an odd prime that fits a register (00_scope R7). -/
structure GoodModulus (p : Nat) : Prop where
  prime : p.Prime
  lower : 2 < p
  upper : p < 2 ^ 256

theorem goodModulus (f : PrimeField) : GoodModulus (Config.modulus f) :=
  ⟨modulus_prime f, by have := modulus_lower f; omega, modulus_upper f⟩

theorem goodModulus_stark : GoodModulus Config.pStark := goodModulus .stark

theorem GoodModulus.pos {p : Nat} (h : GoodModulus p) : 0 < p := h.prime.pos

theorem GoodModulus.odd {p : Nat} (h : GoodModulus p) : p % 2 = 1 :=
  (h.prime.eq_two_or_odd).resolve_left (by have := h.lower; omega)

/-! ## Equality of residues is equality in the field -/

theorem eq_of_cast_eq {p a b : Nat} (ha : a < p) (hb : b < p) (h : (a : ZMod p) = (b : ZMod p)) : a = b := by
  have := (ZMod.natCast_eq_natCast_iff' a b p).1 h
  rwa [Nat.mod_eq_of_lt ha, Nat.mod_eq_of_lt hb] at this

theorem cast_eq_zero_iff_of_lt {p a : Nat} (ha : a < p) : (a : ZMod p) = 0 ↔ a = 0 := by
  rw [ZMod.natCast_eq_zero_iff]
  exact ⟨fun h => Nat.eq_zero_of_dvd_of_lt h ha, fun h => h ▸ dvd_zero p⟩

theorem radix_ne_zero {p : Nat} (h : GoodModulus p) : ((Config.radix : Nat) : ZMod p) ≠ 0 := by
  rw [Ne, ZMod.natCast_eq_zero_iff]
  intro hd
  have := (Nat.prime_dvd_prime_iff_eq h.prime Nat.prime_two).1 (h.prime.dvd_of_dvd_pow hd)
  have := h.lower
  omega

/-! ## The functions, in the field -/

theorem cast_invMod {p : Nat} (h : GoodModulus p) (a : Nat) : ((invMod p a : Nat) : ZMod p) = (a : ZMod p)⁻¹ := by
  have : Fact p.Prime := ⟨h.prime⟩
  have hl := h.lower
  have hu := h.upper
  rw [invMod, powMod_eq _ _ _ _ (show p - 2 < 2 ^ 256 by omega), ZMod.natCast_mod, Nat.cast_pow]
  rcases eq_or_ne (a : ZMod p) 0 with h0 | h0
  · rw [h0, inv_zero, zero_pow (by omega)]
  · have hf : (a : ZMod p) ^ (p - 1) = 1 := ZMod.pow_card_sub_one_eq_one h0
    apply eq_inv_of_mul_eq_one_left
    rw [← pow_succ, show p - 2 + 1 = p - 1 by omega, hf]

theorem cast_rInv {p : Nat} (h : GoodModulus p) : ((rInv p : Nat) : ZMod p) = ((Config.radix : Nat) : ZMod p)⁻¹ := by
  rw [rInv, cast_invMod h, ZMod.natCast_mod]

theorem cast_mont (p x : Nat) : ((mont p x : Nat) : ZMod p) = x * (Config.radix : Nat) := by
  rw [mont, ZMod.natCast_mod, Nat.cast_mul]

theorem cast_val {p : Nat} (h : GoodModulus p) (v : Nat) :
    ((val p v : Nat) : ZMod p) = v * ((Config.radix : Nat) : ZMod p)⁻¹ := by
  rw [val, ZMod.natCast_mod, Nat.cast_mul, cast_rInv h]

theorem cast_montMul {p : Nat} (h : GoodModulus p) (a b : Nat) :
    ((montMul p a b : Nat) : ZMod p) = a * b * ((Config.radix : Nat) : ZMod p)⁻¹ := by
  rw [montMul, ZMod.natCast_mod, Nat.cast_mul, Nat.cast_mul, cast_rInv h]

theorem cast_addMod (p a b : Nat) : ((addMod p a b : Nat) : ZMod p) = a + b := by
  rw [addMod, ZMod.natCast_mod, Nat.cast_add]

theorem cast_subMod {p b : Nat} (a : Nat) (hb : b ≤ p) : ((subMod p a b : Nat) : ZMod p) = a - b := by
  rw [subMod, ZMod.natCast_mod, Nat.cast_add, Nat.cast_sub hb, ZMod.natCast_self]
  ring

theorem cast_reduceWide {p : Nat} (h : GoodModulus p) (lo hi : Nat) :
    ((reduceWide p lo hi : Nat) : ZMod p) =
      (hi * (Config.radix : Nat) + lo) * ((Config.radix : Nat) : ZMod p)⁻¹ := by
  rw [reduceWide, ZMod.natCast_mod, Nat.cast_mul, Nat.cast_add, Nat.cast_mul, cast_rInv h]

theorem cast_montInv {p : Nat} (h : GoodModulus p) (a : Nat) :
    ((montInv p a : Nat) : ZMod p) = ((Config.radix : Nat) : ZMod p) ^ 2 * (a : ZMod p)⁻¹ := by
  rw [montInv, ZMod.natCast_mod, Nat.cast_mul, Nat.cast_pow, cast_invMod h]

theorem cast_montDiv {p : Nat} (h : GoodModulus p) (a b : Nat) :
    ((montDiv p a b : Nat) : ZMod p) = a * (b : ZMod p)⁻¹ * (Config.radix : Nat) := by
  rw [montDiv, ZMod.natCast_mod, Nat.cast_mul, Nat.cast_mul, cast_invMod h]

/-! ## Every result is a canonical residue (10_state R19) -/

theorem mont_lt {p : Nat} (hp : 0 < p) (x : Nat) : mont p x < p := Nat.mod_lt _ hp
theorem val_lt {p : Nat} (hp : 0 < p) (v : Nat) : val p v < p := Nat.mod_lt _ hp
theorem montMul_lt {p : Nat} (hp : 0 < p) (a b : Nat) : montMul p a b < p := Nat.mod_lt _ hp
theorem addMod_lt {p : Nat} (hp : 0 < p) (a b : Nat) : addMod p a b < p := Nat.mod_lt _ hp
theorem subMod_lt {p : Nat} (hp : 0 < p) (a b : Nat) : subMod p a b < p := Nat.mod_lt _ hp
theorem reduceWide_lt {p : Nat} (hp : 0 < p) (lo hi : Nat) : reduceWide p lo hi < p := Nat.mod_lt _ hp
theorem montInv_lt {p : Nat} (hp : 0 < p) (a : Nat) : montInv p a < p := Nat.mod_lt _ hp
theorem montDiv_lt {p : Nat} (hp : 0 < p) (a b : Nat) : montDiv p a b < p := Nat.mod_lt _ hp

theorem mods_eq_of_cast_eq {p a b : Nat} (h : (a : ZMod p) = (b : ZMod p)) : a % p = b % p :=
  (ZMod.natCast_eq_natCast_iff' a b p).1 h

/-! ## The Poseidon layers keep residues canonical (44_poseidon R108) -/

theorem tripleGet_tripleOf (g : Fin 3 → Nat) (i : Fin 3) : tripleGet (tripleOf g) i = g i := by
  fin_cases i <;> rfl

theorem tripleOf_tripleGet (s : Triple) : tripleOf (tripleGet s) = s := rfl

theorem cube_lt (x : Nat) : cube x < Config.pStark := montMul_lt goodModulus_stark.pos _ _

theorem arcLayer_lt (rc : Nat → Fin 3 → Nat) (r : Nat) (s : Triple) (i : Fin 3) :
    tripleGet (arcLayer rc r s) i < Config.pStark := by
  rw [arcLayer, tripleGet_tripleOf]; exact addMod_lt goodModulus_stark.pos _ _

theorem sboxLayer_lt (r : Nat) (s : Triple) (i : Fin 3) (h : tripleGet s i < Config.pStark) :
    tripleGet (sboxLayer r s) i < Config.pStark := by
  rw [sboxLayer, tripleGet_tripleOf]; split
  · exact cube_lt _
  · exact h

theorem mixLayer_lt (m : Fin 3 → Fin 3 → Nat) (s : Triple) (i : Fin 3) :
    tripleGet (mixLayer m s) i < Config.pStark := by
  rw [mixLayer, tripleGet_tripleOf]; exact Nat.mod_lt _ goodModulus_stark.pos

end Sys2Proof.Laws
end

