-- ==== Sys2Proof/Laws/State.lean ====
section
/-! SUPPORT. What each operation over the state does to each field, by `rfl`, so that no later proof unfolds a record update. -/

namespace Sys2Proof.Laws

open Sys2Proof.Machine

variable (s : State)

section Access
@[simp] theorem reg_eq (i : Reg) : s.reg i = s.F[i] := rfl
@[simp] theorem valid_eq (i : Reg) : s.valid i = s.V[i] := rfl
@[simp] theorem operand_eq (i : Reg) : s.operand i = s.F[i].toNat := rfl
end Access

section WriteReg
variable (i : Reg) (v : Word)
@[simp] theorem writeReg_F : (s.writeReg i v).F = s.F.set i v := rfl
@[simp] theorem writeReg_V : (s.writeReg i v).V = s.V.set i true := rfl
@[simp] theorem writeReg_busy : (s.writeReg i v).busy = s.busy := rfl
@[simp] theorem writeReg_curW : (s.writeReg i v).curW = s.curW := rfl
@[simp] theorem writeReg_curD : (s.writeReg i v).curD = s.curD := rfl
@[simp] theorem writeReg_rspValid : (s.writeReg i v).rspValid = s.rspValid := rfl
@[simp] theorem writeReg_rspStatus : (s.writeReg i v).rspStatus = s.rspStatus := rfl
@[simp] theorem writeReg_rspData : (s.writeReg i v).rspData = s.rspData := rfl
@[simp] theorem writeReg_edges : (s.writeReg i v).edges = s.edges := rfl
@[simp] theorem writeReg_freeCtr : (s.writeReg i v).freeCtr = s.freeCtr := rfl
end WriteReg

section Respond
variable (st : Status) (d : Word)
@[simp] theorem respond_F : (s.respond st d).F = s.F := rfl
@[simp] theorem respond_V : (s.respond st d).V = s.V := rfl
@[simp] theorem respond_busy : (s.respond st d).busy = false := rfl
@[simp] theorem respond_curW : (s.respond st d).curW = s.curW := rfl
@[simp] theorem respond_curD : (s.respond st d).curD = s.curD := rfl
@[simp] theorem respond_rspValid : (s.respond st d).rspValid = true := rfl
@[simp] theorem respond_rspStatus : (s.respond st d).rspStatus = st.code := rfl
@[simp] theorem respond_rspData : (s.respond st d).rspData = d := rfl
@[simp] theorem respond_edges : (s.respond st d).edges = s.edges := rfl
@[simp] theorem respond_freeCtr : (s.respond st d).freeCtr = s.freeCtr := rfl
theorem raise_eq : s.raise st = s.respond st 0 := rfl
end Respond

section Ports
variable (w : CmdWord) (d : Word)
@[simp] theorem accept_F : (s.accept w d).F = s.F := rfl
@[simp] theorem accept_V : (s.accept w d).V = s.V := rfl
@[simp] theorem accept_busy : (s.accept w d).busy = true := rfl
@[simp] theorem accept_curW : (s.accept w d).curW = w := rfl
@[simp] theorem accept_curD : (s.accept w d).curD = d := rfl
@[simp] theorem accept_rspValid : (s.accept w d).rspValid = s.rspValid := rfl
@[simp] theorem accept_rspStatus : (s.accept w d).rspStatus = s.rspStatus := rfl
@[simp] theorem accept_rspData : (s.accept w d).rspData = s.rspData := rfl
@[simp] theorem accept_edges : (s.accept w d).edges = s.edges := rfl
@[simp] theorem accept_freeCtr : (s.accept w d).freeCtr = s.freeCtr := rfl
@[simp] theorem takeRsp_F : s.takeRsp.F = s.F := rfl
@[simp] theorem takeRsp_V : s.takeRsp.V = s.V := rfl
@[simp] theorem takeRsp_busy : s.takeRsp.busy = s.busy := rfl
@[simp] theorem takeRsp_curW : s.takeRsp.curW = s.curW := rfl
@[simp] theorem takeRsp_curD : s.takeRsp.curD = s.curD := rfl
@[simp] theorem takeRsp_rspValid : s.takeRsp.rspValid = false := rfl
@[simp] theorem takeRsp_rspStatus : s.takeRsp.rspStatus = s.rspStatus := rfl
@[simp] theorem takeRsp_rspData : s.takeRsp.rspData = s.rspData := rfl
@[simp] theorem takeRsp_edges : s.takeRsp.edges = s.edges := rfl
@[simp] theorem takeRsp_freeCtr : s.takeRsp.freeCtr = s.freeCtr := rfl
end Ports

section Edges
@[simp] theorem dropEdge_F : s.dropEdge.F = s.F := rfl
@[simp] theorem dropEdge_V : s.dropEdge.V = s.V := rfl
@[simp] theorem dropEdge_busy : s.dropEdge.busy = s.busy := rfl
@[simp] theorem dropEdge_curW : s.dropEdge.curW = s.curW := rfl
@[simp] theorem dropEdge_curD : s.dropEdge.curD = s.curD := rfl
@[simp] theorem dropEdge_rspValid : s.dropEdge.rspValid = s.rspValid := rfl
@[simp] theorem dropEdge_rspStatus : s.dropEdge.rspStatus = s.rspStatus := rfl
@[simp] theorem dropEdge_rspData : s.dropEdge.rspData = s.rspData := rfl
@[simp] theorem dropEdge_edges : s.dropEdge.edges = s.edges.tail := rfl
@[simp] theorem dropEdge_freeCtr : s.dropEdge.freeCtr = s.freeCtr := rfl
@[simp] theorem resetEdge_V : s.resetEdge.V = Vector.replicate 8 false := rfl
@[simp] theorem resetEdge_busy : s.resetEdge.busy = false := rfl
@[simp] theorem resetEdge_rspValid : s.resetEdge.rspValid = false := rfl
@[simp] theorem resetEdge_rspStatus : s.resetEdge.rspStatus = 0 := rfl
@[simp] theorem resetEdge_rspData : s.resetEdge.rspData = 0 := rfl
@[simp] theorem resetEdge_edges : s.resetEdge.edges = s.edges := rfl
@[simp] theorem resetEdge_freeCtr : s.resetEdge.freeCtr = s.freeCtr + 1 := rfl
end Edges

end Sys2Proof.Laws
end

