-- ==== Sys2Proof/Laws/Ops.lean ====
section
/-! SUPPORT. What the shared operations that end a command can do, said once: on OK the write and nothing else, on any other
status nothing but the response. -/

namespace Sys2Proof.Laws

open Sys2Proof.Machine

theorem ended_respond (s : State) (st : Status) (d : Word) : Ended s (s.respond st d) st.code d :=
  ⟨rfl, rfl, rfl, rfl, rfl, rfl, rfl, rfl⟩

theorem failed_raise (s : State) (st : Status) : Failed s (s.raise st) st.code :=
  ⟨fun _ _ => ⟨rfl, rfl⟩, ended_respond s st 0⟩

/-! ## One destination -/

theorem finish_ok (s : State) (rd : Reg) {y : Nat} (hy : y < 2 ^ 256) : Wrote s (s.finish .ok rd y) rd y := by
  refine ⟨?_, ?_, ?_, ⟨rfl, rfl, rfl, rfl, rfl, rfl, rfl, rfl⟩⟩
  · simpa [State.finish] using hy
  · simp [State.finish]
  · intro j hj
    have hne : rd.val ≠ j.val := fun h => hj (by simp [Fin.ext h])
    simp [State.finish, Vector.getElem_set_ne, hne]

theorem finish_error (s : State) {st : Status} (h : st ≠ .ok) (rd : Reg) (y : Nat) :
    Failed s (s.finish st rd y) st.code := by
  rw [State.finish, if_neg h]; exact failed_raise s st

/-! ## A response with data -/

theorem finishData_ok (s : State) (d : Nat) : Answered s (s.finishData .ok d) (BitVec.ofNat 256 d) :=
  ⟨fun _ _ => ⟨rfl, rfl⟩, ⟨rfl, rfl, rfl, rfl, rfl, rfl, rfl, rfl⟩⟩

theorem finishData_error (s : State) {st : Status} (h : st ≠ .ok) (d : Nat) :
    Failed s (s.finishData st d) st.code := by
  rw [State.finishData, if_neg h]; exact failed_raise s st

/-! ## A triple -/

theorem triple_distinct {base : Reg} (h : base.val ≤ 5) :
    (base + 1).val = base.val + 1 ∧ (base + 2).val = base.val + 2 := by
  revert base; decide

theorem finishTriple_ok (s : State) {base : Reg} (hb : base.val ≤ 5) {t : Triple}
    (ht : ∀ i, tripleGet t i < 2 ^ 256) : WroteTriple s (s.finishTriple .ok base t) base t := by
  obtain ⟨h1, h2⟩ := triple_distinct hb
  have e0 : t.e0 < 2 ^ 256 := ht 0
  have e1 : t.e1 < 2 ^ 256 := ht 1
  have e2 : t.e2 < 2 ^ 256 := ht 2
  refine ⟨?_, ?_, ?_, ?_, ?_, ⟨rfl, rfl, rfl, rfl, rfl, rfl, rfl, rfl⟩⟩
  · simpa [State.finishTriple, h1, h2] using e0
  · simpa [State.finishTriple, h1, h2] using e1
  · simpa [State.finishTriple, h1, h2] using e2
  · intro j hj
    simp only [tripleRegs, List.mem_cons, List.not_mem_nil, or_false] at hj
    rcases hj with rfl | rfl | rfl <;> simp [State.finishTriple, Vector.getElem_set]
  · intro j hj
    simp only [tripleRegs, List.mem_cons, List.not_mem_nil, or_false, not_or] at hj
    have n0 : base.val ≠ j.val := fun h => hj.1 (Fin.ext h.symm)
    have n1 : (base + 1).val ≠ j.val := fun h => hj.2.1 (Fin.ext h.symm)
    have n2 : (base + 2).val ≠ j.val := fun h => hj.2.2 (Fin.ext h.symm)
    simp [State.finishTriple, n0, n1, n2]

theorem finishTriple_error (s : State) {st : Status} (h : st ≠ .ok) (base : Reg) (t : Triple) :
    Failed s (s.finishTriple st base t) st.code := by
  rw [State.finishTriple, if_neg h]; exact failed_raise s st

/-! ## Which status -/

theorem verdict_ok {illegal uninit range div0 : Bool} :
    verdict illegal uninit range div0 = .ok ↔
      illegal = false ∧ uninit = false ∧ range = false ∧ div0 = false := by
  cases illegal <;> cases uninit <;> cases range <;> cases div0 <;> decide

theorem verdict_uninit {range div0 : Bool} : verdict false true range div0 = .uninit := rfl
theorem verdict_range {div0 : Bool} : verdict false false true div0 = .range := rfl
theorem verdict_div0 : verdict false false false true = .div0 := rfl
theorem verdict_illegal {uninit range div0 : Bool} : verdict true uninit range div0 = .illegal := rfl

/-- The status code names the status. -/
theorem code_inj {a b : Status} (h : a.code = b.code) : a = b := by
  revert h; cases a <;> cases b <;> decide

theorem code_le (a : Status) : a.code.toNat ≤ 4 := by cases a <;> decide

/-! ## The checks, as propositions -/

theorem isFelt_eq_true {p v : Nat} : isFelt p v = true ↔ v < p := by simp [isFelt]
theorem isFelt_eq_false {p v : Nat} : isFelt p v = false ↔ p ≤ v := by simp [isFelt]

theorem tripleFits_eq_true {base : Reg} : tripleFits base = true ↔ base.val ≤ 5 := by simp [tripleFits]
theorem roundFits_eq_true {r : BitVec 8} : roundFits r = true ↔ r.toNat < Config.nRounds := by simp [roundFits]

/-- A ready triple and a round that exists pass every check. -/
theorem checkTriple_ok {s : State} {base : Reg} (h : TripleReady s base) : s.checkTriple base true = .ok := by
  obtain ⟨hf, hv, hr⟩ := h
  simp only [tripleRegs, List.mem_cons, List.not_mem_nil, or_false, forall_eq_or_imp, forall_eq] at hv hr
  rw [State.checkTriple, verdict_ok]
  refine ⟨?_, ?_, ?_, rfl⟩
  · simpa using tripleFits_eq_true.2 hf
  · simp [hv.1, hv.2.1, hv.2.2]
  · simp only [operand_eq, isFelt_eq_true.2 hr.1, isFelt_eq_true.2 hr.2.1, isFelt_eq_true.2 hr.2.2]
    rfl

theorem checkTriple_eq_ok_iff {s : State} {base : Reg} {ok : Bool} :
    s.checkTriple base ok = .ok ↔ ok = true ∧ TripleReady s base := by
  constructor
  · intro h
    rw [State.checkTriple, verdict_ok] at h
    obtain ⟨hi, hu, hr, -⟩ := h
    simp only [Bool.not_eq_false', Bool.and_eq_true, tripleFits_eq_true] at hi
    simp only [Bool.or_eq_false_iff, Bool.not_eq_false', valid_eq, operand_eq, isFelt_eq_true] at hu hr
    refine ⟨hi.2, hi.1, ?_, ?_⟩ <;>
      simp only [tripleRegs, List.mem_cons, List.not_mem_nil, or_false, forall_eq_or_imp, forall_eq]
    · exact ⟨hu.1.1, hu.1.2, hu.2⟩
    · exact ⟨hr.1.1, hr.1.2, hr.2⟩
  · rintro ⟨rfl, h⟩; exact checkTriple_ok h

end Sys2Proof.Laws
end

