-- ==== Sys2Proof/Laws/Exec.lean ====
section
/-! SUPPORT. What every command can do, said once: it answers, and it ends in exactly one of six ways. A claim about commands
is a case analysis on `exec_ends` instead of an unfolding of the meanings. -/

namespace Sys2Proof.Laws

open Sys2Proof.Machine

/-! ## The checks of a command, read off its row of the register table (10_state R17) -/

theorem uninit2 {s : State} {a b : Reg} {i : Instr} (h : instrReads i = [a, b]) :
    (!s.valid a || !s.valid b) = false ↔ ReadsValid i s := by
  simp [ReadsValid, h]

theorem uninit1 {s : State} {a : Reg} {i : Instr} (h : instrReads i = [a]) :
    (!s.valid a) = false ↔ ReadsValid i s := by
  simp [ReadsValid, h]

theorem range2 {s : State} {a b : Reg} {i : Instr} {f : PrimeField} (hf : instrField i = some f)
    (h : instrFelts i = [a, b]) :
    (!isFelt (Config.modulus f) (s.operand a) || !isFelt (Config.modulus f) (s.operand b)) = false ↔
      FeltsInRange i s := by
  rw [Bool.or_eq_false_iff, Bool.not_eq_false', Bool.not_eq_false', isFelt_eq_true, isFelt_eq_true]
  simp [FeltsInRange, h, hf]

theorem range1 {s : State} {a : Reg} {i : Instr} {f : PrimeField} (hf : instrField i = some f)
    (h : instrFelts i = [a]) :
    (!isFelt (Config.modulus f) (s.operand a)) = false ↔ FeltsInRange i s := by
  rw [Bool.not_eq_false', isFelt_eq_true]
  simp [FeltsInRange, h, hf]

theorem range0 {s : State} {i : Instr} (h : instrFelts i = []) : FeltsInRange i s := by
  simp [FeltsInRange, h]

theorem div1 {s : State} {a : Reg} {i : Instr} (h : instrDivisor i = some a) :
    decide (s.operand a = 0) = true ↔ DividesByZero i s := by
  rw [decide_eq_true_iff]
  simp [DividesByZero, h]

theorem noDivisor {s : State} {i : Instr} (h : instrDivisor i = none) : ¬ DividesByZero i s := by
  simp [DividesByZero, h]

/-- The ways a command can end, in the order of the checks (60_exceptions R128). -/
inductive Ends (i : Instr) (s t : State) : Prop where
  | illegal (hw : i.wf = false) (h : Failed s t 3)
  | uninit (hw : i.wf = true) (hv : ¬ ReadsValid i s) (h : Failed s t 4)
  | range (hw : i.wf = true) (hv : ReadsValid i s) (hr : ¬ FeltsInRange i s) (h : Failed s t 2)
  | div0 (hw : i.wf = true) (hv : ReadsValid i s) (hr : FeltsInRange i s) (hz : DividesByZero i s) (h : Failed s t 1)
  | wrote (hw : i.wf = true) (hv : ReadsValid i s) (hr : FeltsInRange i s) (hz : ¬ DividesByZero i s)
      (rd : Reg) (y : Nat) (hd : instrWrites i = [rd]) (h : Wrote s t rd y)
      (hy : ∀ f, instrField i = some f → (∀ rd k, i ≠ .fconst f rd k) → y < Config.modulus f)
  | wroteTriple (hw : i.wf = true) (hv : ReadsValid i s) (hr : FeltsInRange i s) (hz : ¬ DividesByZero i s)
      (base : Reg) (y : Triple) (hd : instrWrites i = tripleRegs base) (h : WroteTriple s t base y)
      (hf : instrField i = some .stark) (hy : ∀ k, tripleGet y k < Config.pStark)
  | answered (hw : i.wf = true) (hv : ReadsValid i s) (hr : FeltsInRange i s) (hz : ¬ DividesByZero i s)
      (rs1 : Reg) (ord : ByteOrder) (hi : i = .fst rs1 ord) (d : Word) (h : Answered s t d)

/-- A command with one destination ends in one of the ways, given what its checks mean. -/
theorem finish_ends {i : Instr} {s : State} {rd : Reg} {y : Nat} {un ra dz : Bool} (hw : i.wf = true)
    (hu : un = false ↔ ReadsValid i s) (hr : ra = false ↔ FeltsInRange i s) (hz : dz = true ↔ DividesByZero i s)
    (hd : instrWrites i = [rd]) (hlt : y < 2 ^ 256)
    (hy : ∀ f, instrField i = some f → (∀ rd k, i ≠ .fconst f rd k) → y < Config.modulus f) :
    Ends i s (s.finish (verdict false un ra dz) rd y) := by
  cases un with
  | true => exact .uninit hw (fun h => absurd (hu.2 h) (by decide)) (finish_error s (by simp [verdict]) rd y)
  | false =>
    cases ra with
    | true =>
      exact .range hw (hu.1 rfl) (fun h => absurd (hr.2 h) (by decide)) (finish_error s (by simp [verdict]) rd y)
    | false =>
      cases dz with
      | true => exact .div0 hw (hu.1 rfl) (hr.1 rfl) (hz.1 rfl) (finish_error s (by simp [verdict]) rd y)
      | false =>
        exact .wrote hw (hu.1 rfl) (hr.1 rfl) (fun h => absurd (hz.2 h) (by decide)) rd y hd (finish_ok s rd hlt) hy

theorem lt_word {f : PrimeField} {y : Nat} (h : y < Config.modulus f) : y < 2 ^ 256 := h.trans (modulus_upper f)

/-- A Poseidon command ends in one of the ways. -/
theorem finishTriple_ends {i : Instr} {s : State} {base : Reg} {ok : Bool} {y : Triple}
    (hw : i.wf = (tripleFits base && ok)) (hread : instrReads i = tripleRegs base)
    (hfelt : instrFelts i = tripleRegs base) (hd : instrWrites i = tripleRegs base) (hf : instrField i = some .stark)
    (hz : instrDivisor i = none) (hy : (∀ j ∈ tripleRegs base, s.F[j].toNat < Config.pStark) →
      ∀ k, tripleGet y k < Config.pStark) :
    Ends i s (s.finishTriple (s.checkTriple base ok) base y) := by
  have hv : ReadsValid i s ↔ ∀ j ∈ tripleRegs base, s.V[j] = true := by rw [ReadsValid, hread]
  have hr : FeltsInRange i s ↔ ∀ j ∈ tripleRegs base, s.F[j].toNat < Config.pStark := by
    simp only [FeltsInRange, hfelt, hf, Option.some.injEq, forall_eq', Config.modulus]
  rcases hb : (tripleFits base && ok) with _ | _
  · have hst : s.checkTriple base ok = .illegal := by simp [State.checkTriple, hb, verdict]
    exact .illegal (hw.trans hb) (by rw [hst]; exact finishTriple_error s (by decide) base y)
  have hw' := hw.trans hb
  rw [Bool.and_eq_true, tripleFits_eq_true] at hb
  rcases hu : (!s.valid base || !s.valid (base + 1) || !s.valid (base + 2)) with _ | _
  swap
  · have hst : s.checkTriple base ok = .uninit := by
      simp only [State.checkTriple, hu, tripleFits_eq_true.2 hb.1, hb.2]; rfl
    refine .uninit hw' (fun h => ?_) (by rw [hst]; exact finishTriple_error s (by decide) base y)
    have := hv.1 h
    simp only [tripleRegs, List.mem_cons, List.not_mem_nil, or_false, forall_eq_or_imp, forall_eq] at this
    simp [this.1, this.2.1, this.2.2] at hu
  have hvv : ∀ j ∈ tripleRegs base, s.V[j] = true := by
    simp only [Bool.or_eq_false_iff, Bool.not_eq_false', valid_eq] at hu
    simp only [tripleRegs, List.mem_cons, List.not_mem_nil, or_false, forall_eq_or_imp, forall_eq]
    exact ⟨hu.1.1, hu.1.2, hu.2⟩
  rcases hra : (!isFelt Config.pStark (s.operand base) || !isFelt Config.pStark (s.operand (base + 1)) ||
      !isFelt Config.pStark (s.operand (base + 2))) with _ | _
  · have hrr : ∀ j ∈ tripleRegs base, s.F[j].toNat < Config.pStark := by
      simp only [Bool.or_eq_false_iff, Bool.not_eq_false', operand_eq, isFelt_eq_true] at hra
      simp only [tripleRegs, List.mem_cons, List.not_mem_nil, or_false, forall_eq_or_imp, forall_eq]
      exact ⟨hra.1.1, hra.1.2, hra.2⟩
    have hok : s.checkTriple base ok = .ok := checkTriple_eq_ok_iff.2 ⟨hb.2, hb.1, hvv, hrr⟩
    refine .wroteTriple hw' (hv.2 hvv) (hr.2 hrr) (noDivisor hz) base y hd ?_ hf (hy hrr)
    rw [hok]
    exact finishTriple_ok s hb.1 (fun k => (hy hrr k).trans (modulus_upper .stark))
  · have hst : s.checkTriple base ok = .range := by
      simp only [State.checkTriple, hu, hra, tripleFits_eq_true.2 hb.1, hb.2]; rfl
    refine .range hw' (hv.2 hvv) (fun h => ?_) (by rw [hst]; exact finishTriple_error s (by decide) base y)
    have := hr.1 h
    simp only [tripleRegs, List.mem_cons, List.not_mem_nil, or_false, forall_eq_or_imp, forall_eq] at this
    simp only [operand_eq, isFelt_eq_true.2 this.1, isFelt_eq_true.2 this.2.1, isFelt_eq_true.2 this.2.2] at hra
    exact absurd hra (by decide)

theorem triple_felt {s : State} {base : Reg} (h : ∀ j ∈ tripleRegs base, s.F[j].toNat < Config.pStark) (k : Fin 3) :
    tripleGet (s.triple base) k < Config.pStark := by
  simp only [tripleRegs, List.mem_cons, List.not_mem_nil, or_false, forall_eq_or_imp, forall_eq] at h
  fin_cases k
  · exact h.1
  · exact h.2.1
  · exact h.2.2

theorem poseidonRounds_lt (rc : Nat → Fin 3 → Nat) (n : Nat) (s : Triple) (h : ∀ k, tripleGet s k < Config.pStark)
    (k : Fin 3) : tripleGet (poseidonRounds rc n s) k < Config.pStark := by
  cases n with
  | zero => exact h k
  | succ n => exact mixLayer_lt _ _ _

/-- The byte sum of a data word fits a word. -/
theorem sumBytes_lt (bs : List Byte) : sumBytes bs < 256 ^ bs.length := by
  induction bs with
  | nil => simp [sumBytes]
  | cons b bs ih =>
    have := b.isLt
    rw [sumBytes, List.length_cons, pow_succ]
    omega

theorem laneBytes_length (d : Word) : (laneBytes d).length = 32 := by simp [laneBytes]

theorem intOf_lt (ord : ByteOrder) (d : Word) : intOf ord (laneBytes d) < 2 ^ 256 := by
  have hl : (256 : Nat) ^ 32 = 2 ^ 256 := by norm_num
  cases ord
  · simpa [intOf, laneBytes_length, hl] using sumBytes_lt (laneBytes d)
  · simpa [intOf, laneBytes_length, hl] using sumBytes_lt (laneBytes d).reverse

theorem fieldConst_lt (f : PrimeField) (k : ConstIdx) : fieldConst (Config.modulus f) k < 2 ^ 256 := by
  have hp := (goodModulus f).pos
  cases k
  · simp [fieldConst]
  · exact lt_word (Nat.mod_lt _ hp)
  · exact lt_word (Nat.mod_lt _ hp)
  · exact modulus_upper f

/-- Every command answers, and it ends in one of the ways of `Ends`. -/
theorem exec_ends (i : Instr) (s : State) : ∃ t, exec i s = .next t ∧ Ends i s t := by
  cases i with
  | fld rd ord =>
    exact ⟨_, rfl, .wrote rfl (by simp [ReadsValid, instrReads]) (range0 rfl) (noDivisor rfl) rd _ rfl
      (finish_ok s rd (intOf_lt ord s.curD)) (by simp [instrField])⟩
  | fst rs1 ord =>
    refine ⟨_, rfl, ?_⟩
    rcases hv : s.valid rs1 with _ | _
    · exact .uninit rfl (by simpa [ReadsValid, instrReads] using hv) (finishData_error s (by simp [verdict]) _)
    · exact .answered rfl (by simpa [ReadsValid, instrReads] using hv) (range0 rfl) (noDivisor rfl) rs1 ord rfl _
        (finishData_ok s _)
  | fconst f rd k =>
    refine ⟨_, rfl, .wrote rfl (by simp [ReadsValid, instrReads]) (range0 rfl) (noDivisor rfl) rd _ rfl
      (finish_ok s rd (fieldConst_lt f k)) ?_⟩
    intro g hg hne
    obtain rfl : f = g := by simpa [instrField] using hg
    exact absurd rfl (hne rd k)
  | tomont f rd rs1 =>
    have hlt := mont_lt (goodModulus f).pos (s.operand rs1)
    exact ⟨_, rfl, finish_ends rfl (uninit1 rfl) (iff_of_true rfl (range0 rfl)) (iff_of_false (by decide) (noDivisor rfl)) rfl (lt_word hlt)
      (by rintro g ⟨⟩ -; exact hlt)⟩
  | frommont f rd rs1 =>
    have hlt := val_lt (goodModulus f).pos (s.operand rs1)
    exact ⟨_, rfl, finish_ends rfl (uninit1 rfl) (range1 rfl rfl) (iff_of_false (by decide) (noDivisor rfl)) rfl (lt_word hlt)
      (by rintro g ⟨⟩ -; exact hlt)⟩
  | fadd f rd rs1 rs2 =>
    have hlt := addMod_lt (goodModulus f).pos (s.operand rs1) (s.operand rs2)
    exact ⟨_, rfl, finish_ends rfl (uninit2 rfl) (range2 rfl rfl) (iff_of_false (by decide) (noDivisor rfl)) rfl (lt_word hlt)
      (by rintro g ⟨⟩ -; exact hlt)⟩
  | fsub f rd rs1 rs2 =>
    have hlt := subMod_lt (goodModulus f).pos (s.operand rs1) (s.operand rs2)
    exact ⟨_, rfl, finish_ends rfl (uninit2 rfl) (range2 rfl rfl) (iff_of_false (by decide) (noDivisor rfl)) rfl (lt_word hlt)
      (by rintro g ⟨⟩ -; exact hlt)⟩
  | fmul f rd rs1 rs2 =>
    have hlt := montMul_lt (goodModulus f).pos (s.operand rs1) (s.operand rs2)
    exact ⟨_, rfl, finish_ends rfl (uninit2 rfl) (range2 rfl rfl) (iff_of_false (by decide) (noDivisor rfl)) rfl (lt_word hlt)
      (by rintro g ⟨⟩ -; exact hlt)⟩
  | fredc f rd rs1 rs2 =>
    have hlt := reduceWide_lt (goodModulus f).pos (s.operand rs1) (s.operand rs2)
    exact ⟨_, rfl, finish_ends rfl (uninit2 rfl) (range1 rfl rfl) (iff_of_false (by decide) (noDivisor rfl)) rfl (lt_word hlt)
      (by rintro g ⟨⟩ -; exact hlt)⟩
  | finv f rd rs1 =>
    have hlt := montInv_lt (goodModulus f).pos (s.operand rs1)
    exact ⟨_, rfl, finish_ends rfl (uninit1 rfl) (range1 rfl rfl) (div1 rfl) rfl (lt_word hlt)
      (by rintro g ⟨⟩ -; exact hlt)⟩
  | fdiv f rd rs1 rs2 =>
    have hlt := montDiv_lt (goodModulus f).pos (s.operand rs1) (s.operand rs2)
    exact ⟨_, rfl, finish_ends rfl (uninit2 rfl) (range2 rfl rfl) (div1 rfl) rfl (lt_word hlt)
      (by rintro g ⟨⟩ -; exact hlt)⟩
  | parc base r =>
    exact ⟨_, rfl, finishTriple_ends rfl rfl rfl rfl rfl rfl (fun _ => arcLayer_lt _ _ _)⟩
  | psbox base r =>
    exact ⟨_, rfl, finishTriple_ends rfl rfl rfl rfl rfl rfl (fun h k => sboxLayer_lt _ _ _ (triple_felt h k))⟩
  | pmds base =>
    exact ⟨_, rfl, finishTriple_ends (by simp [Instr.wf]) rfl rfl rfl rfl rfl (fun _ => mixLayer_lt _ _)⟩
  | prnd base r =>
    exact ⟨_, rfl, finishTriple_ends rfl rfl rfl rfl rfl rfl (fun _ => mixLayer_lt _ _)⟩
  | pperm base =>
    exact ⟨_, rfl, finishTriple_ends (by simp [Instr.wf]) rfl rfl rfl rfl rfl
      (fun h => poseidonRounds_lt _ _ _ (triple_felt h))⟩

end Sys2Proof.Laws
end

