-- ==== Sys2Proof/Laws/Bytes.lean ====
section
/-! SUPPORT. Byte arrays and integers: each determines the other (20_memory R44 to R46). -/

namespace Sys2Proof.Laws

open Sys2Proof.Machine

/-- Byte k of a byte sum. -/
theorem sumBytes_byte (bs : List Byte) (k : Nat) : sumBytes bs / 256 ^ k % 256 = (bs.getD k 0).toNat := by
  induction bs generalizing k with
  | nil => simp [sumBytes]
  | cons b bs ih =>
    have hb := b.isLt
    rw [sumBytes]
    cases k with
    | zero => simp only [pow_zero, Nat.div_one, List.getD_cons_zero]; omega
    | succ k =>
      rw [pow_succ', ← Nat.div_div_eq_div_mul, show (b.toNat + 256 * sumBytes bs) / 256 = sumBytes bs by omega, ih,
        List.getD_cons_succ]

/-- A byte sum as a sum over its indices. -/
theorem sumBytes_eq_sum (bs : List Byte) :
    sumBytes bs = ∑ k ∈ Finset.range bs.length, (bs.getD k 0).toNat * 256 ^ k := by
  induction bs with
  | nil => rfl
  | cons b bs ih =>
    rw [sumBytes, List.length_cons, Finset.sum_range_succ', ih, Finset.mul_sum, add_comm]
    simp only [List.getD_cons_zero, pow_zero, mul_one, List.getD_cons_succ, pow_succ]
    congr 1
    exact Finset.sum_congr rfl fun k _ => by ring

/-- Lane k of a data word. -/
theorem laneBytes_byte (d : Word) {k : Nat} (hk : k < 32) :
    ((laneBytes d).getD k 0).toNat = d.toNat / 256 ^ k % 256 := by
  have h8 : (256 : Nat) ^ k = 2 ^ (8 * k) := by rw [pow_mul]; norm_num
  rw [laneBytes, List.getD_eq_getElem _ _ (by simpa using hk), List.getElem_map, List.getElem_range,
    BitVec.extractLsb'_toNat, Nat.shiftRight_eq_div_pow, h8]

theorem sumBytes_laneBytes (d : Word) : sumBytes (laneBytes d) = d.toNat := by
  have key : ∀ n x : Nat, ∑ k ∈ Finset.range n, x / 256 ^ k % 256 * 256 ^ k = x % 256 ^ n := by
    intro n x
    induction n with
    | zero => simp [Nat.mod_one]
    | succ n ih => rw [Finset.sum_range_succ, ih, pow_succ, Nat.mod_mul, Nat.mul_comm (256 ^ n)]
  rw [sumBytes_eq_sum, laneBytes_length,
    Finset.sum_congr rfl fun k hk => by rw [laneBytes_byte d (Finset.mem_range.1 hk)], key]
  exact Nat.mod_eq_of_lt (lt_of_lt_of_eq d.isLt (by norm_num))

/-- Storing an integer's bytes on the lanes and reading the lanes gives the bytes. -/
theorem laneBytes_sumBytes {bs : List Byte} (h : bs.length = 32) : laneBytes (BitVec.ofNat 256 (sumBytes bs)) = bs := by
  have hlt : sumBytes bs < 2 ^ 256 := by
    have := sumBytes_lt bs
    rw [h] at this
    exact lt_of_lt_of_eq this (by norm_num)
  apply List.ext_getElem (by rw [laneBytes_length, h])
  intro k h1 h2
  apply BitVec.eq_of_toNat_eq
  have hk : k < 32 := by rwa [laneBytes_length] at h1
  have := laneBytes_byte (BitVec.ofNat 256 (sumBytes bs)) hk
  rw [List.getD_eq_getElem _ _ h1, BitVec.toNat_ofNat, Nat.mod_eq_of_lt hlt, sumBytes_byte,
    List.getD_eq_getElem _ _ h2] at this
  exact this

theorem bytesOf_length (ord : ByteOrder) (x : Word) : (bytesOf ord x).length = 32 := by
  cases ord <;> simp [bytesOf, laneBytes_length]

/-- The bytes of an integer denote it (20_memory R46). -/
theorem intOf_bytesOf (ord : ByteOrder) (x : Word) : intOf ord (bytesOf ord x) = x.toNat := by
  cases ord <;> simp [intOf, bytesOf, sumBytes_laneBytes]

end Sys2Proof.Laws
end

