-- ==== Sys2Proof/Laws/Commands.lean ====
section
/-! SUPPORT. Each command on operands that pass its checks: the write it ends with, so that a claim about a result never
unfolds a meaning. -/

namespace Sys2Proof.Laws

open Sys2Proof.Machine

variable {f : PrimeField} {s : State} {rd rs1 rs2 base : Reg}

theorem exec_fld_ok (ord : ByteOrder) : exec (.fld rd ord) s = .next (s.finish .ok rd (intOf ord (laneBytes s.curD))) := rfl

theorem exec_fst_ok {ord : ByteOrder} (hv : s.V[rs1] = true) :
    exec (.fst rs1 ord) s = .next (s.finishData .ok (sumBytes (bytesOf ord s.F[rs1]))) := by
  simp only [exec, execFst, valid_eq, hv]; rfl

theorem exec_fconst_ok (k : ConstIdx) :
    exec (.fconst f rd k) s = .next (s.finish .ok rd (fieldConst (Config.modulus f) k)) := rfl

theorem exec_tomont_ok (hv : s.V[rs1] = true) :
    exec (.tomont f rd rs1) s = .next (s.finish .ok rd (mont (Config.modulus f) s.F[rs1].toNat)) := by
  simp only [exec, execTomont, valid_eq, hv]; rfl

theorem exec_frommont_ok (hv : s.V[rs1] = true) (h : s.F[rs1].toNat < Config.modulus f) :
    exec (.frommont f rd rs1) s = .next (s.finish .ok rd (val (Config.modulus f) s.F[rs1].toNat)) := by
  simp only [exec, execFrommont, valid_eq, operand_eq, hv, isFelt_eq_true.2 h]; rfl

theorem exec_fadd_ok (hv1 : s.V[rs1] = true) (hv2 : s.V[rs2] = true) (h1 : s.F[rs1].toNat < Config.modulus f)
    (h2 : s.F[rs2].toNat < Config.modulus f) :
    exec (.fadd f rd rs1 rs2) s = .next (s.finish .ok rd (addMod (Config.modulus f) s.F[rs1].toNat s.F[rs2].toNat)) := by
  simp only [exec, execFadd, valid_eq, operand_eq, hv1, hv2, isFelt_eq_true.2 h1, isFelt_eq_true.2 h2]; rfl

theorem exec_fsub_ok (hv1 : s.V[rs1] = true) (hv2 : s.V[rs2] = true) (h1 : s.F[rs1].toNat < Config.modulus f)
    (h2 : s.F[rs2].toNat < Config.modulus f) :
    exec (.fsub f rd rs1 rs2) s = .next (s.finish .ok rd (subMod (Config.modulus f) s.F[rs1].toNat s.F[rs2].toNat)) := by
  simp only [exec, execFsub, valid_eq, operand_eq, hv1, hv2, isFelt_eq_true.2 h1, isFelt_eq_true.2 h2]; rfl

theorem exec_fmul_ok (hv1 : s.V[rs1] = true) (hv2 : s.V[rs2] = true) (h1 : s.F[rs1].toNat < Config.modulus f)
    (h2 : s.F[rs2].toNat < Config.modulus f) :
    exec (.fmul f rd rs1 rs2) s = .next (s.finish .ok rd (montMul (Config.modulus f) s.F[rs1].toNat s.F[rs2].toNat)) := by
  simp only [exec, execFmul, valid_eq, operand_eq, hv1, hv2, isFelt_eq_true.2 h1, isFelt_eq_true.2 h2]; rfl

theorem exec_fredc_ok (hv1 : s.V[rs1] = true) (hv2 : s.V[rs2] = true) (h2 : s.F[rs2].toNat < Config.modulus f) :
    exec (.fredc f rd rs1 rs2) s =
      .next (s.finish .ok rd (reduceWide (Config.modulus f) s.F[rs1].toNat s.F[rs2].toNat)) := by
  simp only [exec, execFredc, valid_eq, operand_eq, hv1, hv2, isFelt_eq_true.2 h2]; rfl

theorem exec_finv_ok (hv : s.V[rs1] = true) (h : s.F[rs1].toNat < Config.modulus f) (h0 : s.F[rs1].toNat ≠ 0) :
    exec (.finv f rd rs1) s = .next (s.finish .ok rd (montInv (Config.modulus f) s.F[rs1].toNat)) := by
  simp only [exec, execFinv, valid_eq, operand_eq, hv, isFelt_eq_true.2 h, h0, decide_false]; rfl

theorem exec_fdiv_ok (hv1 : s.V[rs1] = true) (hv2 : s.V[rs2] = true) (h1 : s.F[rs1].toNat < Config.modulus f)
    (h2 : s.F[rs2].toNat < Config.modulus f) (h0 : s.F[rs2].toNat ≠ 0) :
    exec (.fdiv f rd rs1 rs2) s = .next (s.finish .ok rd (montDiv (Config.modulus f) s.F[rs1].toNat s.F[rs2].toNat)) := by
  simp only [exec, execFdiv, valid_eq, operand_eq, hv1, hv2, isFelt_eq_true.2 h1, isFelt_eq_true.2 h2,
    h0, decide_false]; rfl

/-! ## The Poseidon commands on a triple that is ready -/

theorem exec_parc_ok {r : BitVec 8} (h : TripleReady s base) (hr : r.toNat < Config.nRounds) :
    exec (.parc base r) s = .next (s.finishTriple .ok base (arcLayer Config.rc r.toNat (s.triple base))) := by
  simp only [exec, execParc, show roundFits r = true from decide_eq_true hr, checkTriple_ok h]

theorem exec_psbox_ok {r : BitVec 8} (h : TripleReady s base) (hr : r.toNat < Config.nRounds) :
    exec (.psbox base r) s = .next (s.finishTriple .ok base (sboxLayer r.toNat (s.triple base))) := by
  simp only [exec, execPsbox, show roundFits r = true from decide_eq_true hr, checkTriple_ok h]

theorem exec_pmds_ok (h : TripleReady s base) :
    exec (.pmds base) s = .next (s.finishTriple .ok base (mixLayer Config.mds (s.triple base))) := by
  simp only [exec, execPmds, checkTriple_ok h]

theorem exec_prnd_ok {r : BitVec 8} (h : TripleReady s base) (hr : r.toNat < Config.nRounds) :
    exec (.prnd base r) s = .next (s.finishTriple .ok base (poseidonRound Config.rc r.toNat (s.triple base))) := by
  simp only [exec, execPrnd, show roundFits r = true from decide_eq_true hr, checkTriple_ok h]

theorem exec_pperm_ok (h : TripleReady s base) :
    exec (.pperm base) s = .next (s.finishTriple .ok base (poseidonPerm Config.rc (s.triple base))) := by
  simp only [exec, execPperm, checkTriple_ok h]

/-! ## What a written triple is to the next command -/

theorem finishTriple_felt (h : TripleReady s base) {y : Triple} (hy : ∀ i, tripleGet y i < Config.pStark) :
    WroteTriple s (s.finishTriple .ok base y) base y :=
  finishTriple_ok s h.fits fun i => (hy i).trans (modulus_upper .stark)

theorem wroteTriple_triple {t : State} {y : Triple} (h : WroteTriple s t base y) : t.triple base = y := by
  simp only [State.triple, operand_eq, h.value0, h.value1, h.value2]

theorem wroteTriple_ready {t : State} {y : Triple} (hb : base.val ≤ 5) (h : WroteTriple s t base y)
    (hy : ∀ i, tripleGet y i < Config.pStark) : TripleReady t base := by
  refine ⟨hb, h.valid, ?_⟩
  simp only [tripleRegs, List.mem_cons, List.not_mem_nil, or_false, forall_eq_or_imp, forall_eq]
  rw [h.value0, h.value1, h.value2]
  exact ⟨hy 0, hy 1, hy 2⟩

theorem wroteTriple_trans {t u : State} {y z : Triple} (h : WroteTriple s t base y) (h' : WroteTriple t u base z) :
    WroteTriple s u base z :=
  ⟨h'.value0, h'.value1, h'.value2, h'.valid,
    fun j hj => ⟨(h'.frame j hj).1.trans (h.frame j hj).1, (h'.frame j hj).2.trans (h.frame j hj).2⟩,
    ⟨h'.ended.busy, h'.ended.rspValid, h'.ended.rspStatus, h'.ended.rspData, h'.ended.curW.trans h.ended.curW,
      h'.ended.curD.trans h.ended.curD, h'.ended.edges.trans h.ended.edges, h'.ended.freeCtr.trans h.ended.freeCtr⟩⟩

/-- A Poseidon command that writes felts leaves the triple ready for the next. -/
theorem ready_after {i : Instr} {y : Triple} (h : TripleReady s base) (hy : ∀ k, tripleGet y k < Config.pStark)
    (he : exec i s = .next (s.finishTriple .ok base y)) :
    ∃ t, exec i s = .next t ∧ t.rspStatus = 0 ∧ TripleReady t base :=
  ⟨_, he, (finishTriple_felt h hy).ended.rspStatus, wroteTriple_ready h.fits (finishTriple_felt h hy) hy⟩

theorem runOk_cons {i : Instr} {t : State} (h : exec i s = .next t) (h0 : t.rspStatus = 0) (is : List Instr) :
    runOk (i :: is) s = runOk is t := by
  rw [runOk, h]; exact if_pos h0

/-- Two states that a triple was written in, from one state, have the same registers. -/
theorem wroteTriple_unique {t u : State} {y : Triple} (h : WroteTriple s t base y) (h' : WroteTriple s u base y) :
    t.F = u.F ∧ t.V = u.V := by
  have key : ∀ j : Reg, t.F[j] = u.F[j] ∧ t.V[j] = u.V[j] := by
    intro j
    by_cases hm : j ∈ tripleRegs base
    · refine ⟨BitVec.eq_of_toNat_eq ?_, (h.valid j hm).trans (h'.valid j hm).symm⟩
      simp only [tripleRegs, List.mem_cons, List.not_mem_nil, or_false] at hm
      rcases hm with rfl | rfl | rfl
      · exact h.value0.trans h'.value0.symm
      · exact h.value1.trans h'.value1.symm
      · exact h.value2.trans h'.value2.symm
    · exact ⟨(h.frame j hm).1.trans (h'.frame j hm).1.symm, (h.frame j hm).2.trans (h'.frame j hm).2.symm⟩
  exact ⟨Vector.ext fun i hi => (key ⟨i, hi⟩).1, Vector.ext fun i hi => (key ⟨i, hi⟩).2⟩

end Sys2Proof.Laws
end

