-- ==== Sys2Proof/Laws/Decode.lean ====
section
/-! SUPPORT. A word and its fields: each determines the other, and the mask of a row fixes the bits it covers (30_encoding R57,
R59). -/

namespace Sys2Proof.Laws

theorem bits_lt (w : CmdWord) (hi lo : Nat) : bits w hi lo < 2 ^ (hi - lo + 1) := Nat.mod_lt _ (by positivity)

/-- A word is the sum of its fields. -/
theorem word_eq_fields (w : CmdWord) :
    w.toNat = bits w 31 27 * 2 ^ 27 + bits w 26 26 * 2 ^ 26 + bits w 25 23 * 2 ^ 23 + bits w 22 20 * 2 ^ 20 +
      bits w 19 17 * 2 ^ 17 + bits w 16 8 * 2 ^ 8 + bits w 7 0 := by
  have := w.isLt
  simp only [bits]
  omega

/-- A run of bits that a mask covers has the value the masked word has there. -/
theorem bits_of_mask {w m v : CmdWord} (h : w &&& m = v) {lo n : Nat} (hn : 0 < n)
    (hm : m.extractLsb' lo n = BitVec.allOnes n) : bits w (lo + n - 1) lo = (v.extractLsb' lo n).toNat := by
  have hx : (w &&& m).extractLsb' lo n = w.extractLsb' lo n := by
    rw [BitVec.extractLsb'_and, hm, BitVec.and_allOnes]
  rw [← h, hx, BitVec.extractLsb'_toNat, Nat.shiftRight_eq_div_pow, bits, show lo + n - 1 - lo + 1 = n by omega]

theorem ofCode_code (op : Op) : Op.ofCode op.code = some op := by cases op <;> rfl

theorem code_of_ofCode {c : BitVec 5} {op : Op} (h : Op.ofCode c = some op) : c = op.code := by
  revert h; revert c; cases op <;> decide

/-- What a word the decoder accepts has passed. -/
theorem decode_ok {w : CmdWord} {i : Instr} (h : decode w = .ok i) :
    ∃ op, Op.ofCode (opField w) = some op ∧ w &&& op.mask = op.fixedBits ∧
      (op.usesTriple = true → tripleFits (rdField w) = true) ∧ (op.usesRound = true → roundFits (immField w) = true) ∧
      i = op.build w := by
  rw [decode] at h
  split at h
  · cases h
  · next op hop =>
    refine ⟨op, hop, ?_⟩
    split at h
    · cases h
    · next hm =>
      split at h
      · cases h
      · next ht =>
        split at h
        · cases h
        · next hr =>
          refine ⟨not_not.1 hm, ?_, ?_, by cases h; rfl⟩
          · intro hu; simpa [hu] using ht
          · intro hu; simpa [hu] using hr

/-! ## The decoded fields, as the numbers they are encoded by -/

theorem opField_of_ofCode {w : CmdWord} {op : Op} (h : Op.ofCode (opField w) = some op) :
    bits w 31 27 = op.code.toNat := by
  rw [← code_of_ofCode h, opField, BitVec.toNat_ofNat, Nat.mod_eq_of_lt (bits_lt w 31 27)]

theorem fField_bit (w : CmdWord) : (fField w).bit = bits w 26 26 := by
  have h : bits w 26 26 < 2 := bits_lt w 26 26
  unfold fField
  interval_cases bits w 26 26 <;> rfl

theorem rdField_val (w : CmdWord) : (rdField w).val = bits w 25 23 := Nat.mod_eq_of_lt (bits_lt w 25 23)
theorem rs1Field_val (w : CmdWord) : (rs1Field w).val = bits w 22 20 := Nat.mod_eq_of_lt (bits_lt w 22 20)
theorem rs2Field_val (w : CmdWord) : (rs2Field w).val = bits w 19 17 := Nat.mod_eq_of_lt (bits_lt w 19 17)
theorem immField_toNat (w : CmdWord) : (immField w).toNat = bits w 7 0 := Nat.mod_eq_of_lt (bits_lt w 7 0)

theorem ordField_bit (w : CmdWord) : (ordField w).bit = bits w 0 0 := by
  have h : bits w 0 0 < 2 := bits_lt w 0 0
  unfold ordField
  interval_cases bits w 0 0 <;> rfl

theorem constField_num (w : CmdWord) : (constField w).num = bits w 1 0 := by
  have h : bits w 1 0 < 4 := bits_lt w 1 0
  unfold constField
  interval_cases bits w 1 0 <;> rfl

/-- A word whose fields are the given ones is the assembled word (30_encoding R76). -/
theorem assembleFields_eq (w : CmdWord) {op : Op} {f rd rs1 rs2 imm : Nat} (hop : bits w 31 27 = op.code.toNat)
    (hf : f = bits w 26 26) (hrd : rd = bits w 25 23) (h1 : rs1 = bits w 22 20) (h2 : rs2 = bits w 19 17)
    (himm : imm = bits w 7 0) (hrsv : bits w 16 8 = 0) : assembleFields op f rd rs1 rs2 imm = w := by
  subst hf hrd h1 h2 himm
  have h := word_eq_fields w
  rw [hrsv, Nat.zero_mul, Nat.add_zero] at h
  apply BitVec.eq_of_toNat_eq
  rw [assembleFields, BitVec.toNat_ofNat, ← hop, ← h]
  exact Nat.mod_eq_of_lt w.isLt

end Sys2Proof.Laws
end

