-- ==== Sys2Proof/Laws/PerInstr.lean ====
section
/-! SUPPORT. Statements made of every instruction, one lemma for each constructor. `RowShape`: the assembled word has the encoding
shape of its row of the opcode map, so RSV and every field the command does not use are zero in it (30_encoding R59, R62, R68,
R76). -/

namespace Sys2Proof.Laws.RowShape

def Statement (i : Instr) : Prop := encode i &&& i.op.mask = i.op.fixedBits

theorem fld (rd : Reg) (ord : ByteOrder) : Statement (.fld rd ord) := by
  unfold Statement; cases ord <;> revert rd <;> decide +kernel
theorem fst (rs1 : Reg) (ord : ByteOrder) : Statement (.fst rs1 ord) := by
  unfold Statement; cases ord <;> revert rs1 <;> decide +kernel
theorem fconst (f : PrimeField) (rd : Reg) (k : ConstIdx) : Statement (.fconst f rd k) := by
  unfold Statement; cases f <;> cases k <;> revert rd <;> decide +kernel
theorem tomont (f : PrimeField) (rd rs1 : Reg) : Statement (.tomont f rd rs1) := by
  unfold Statement; cases f <;> revert rd rs1 <;> decide +kernel
theorem frommont (f : PrimeField) (rd rs1 : Reg) : Statement (.frommont f rd rs1) := by
  unfold Statement; cases f <;> revert rd rs1 <;> decide +kernel
theorem fadd (f : PrimeField) (rd rs1 rs2 : Reg) : Statement (.fadd f rd rs1 rs2) := by
  unfold Statement; cases f <;> revert rd rs1 rs2 <;> decide +kernel
theorem fsub (f : PrimeField) (rd rs1 rs2 : Reg) : Statement (.fsub f rd rs1 rs2) := by
  unfold Statement; cases f <;> revert rd rs1 rs2 <;> decide +kernel
theorem fmul (f : PrimeField) (rd rs1 rs2 : Reg) : Statement (.fmul f rd rs1 rs2) := by
  unfold Statement; cases f <;> revert rd rs1 rs2 <;> decide +kernel
theorem fredc (f : PrimeField) (rd rs1 rs2 : Reg) : Statement (.fredc f rd rs1 rs2) := by
  unfold Statement; cases f <;> revert rd rs1 rs2 <;> decide +kernel
theorem finv (f : PrimeField) (rd rs1 : Reg) : Statement (.finv f rd rs1) := by
  unfold Statement; cases f <;> revert rd rs1 <;> decide +kernel
theorem fdiv (f : PrimeField) (rd rs1 rs2 : Reg) : Statement (.fdiv f rd rs1 rs2) := by
  unfold Statement; cases f <;> revert rd rs1 rs2 <;> decide +kernel
theorem parc (base : Reg) (r : BitVec 8) : Statement (.parc base r) := by
  unfold Statement
  have h : ∀ (b : Reg) (r : Fin 256), encode (.parc b (.ofFin r)) &&& Op.parc.mask = Op.parc.fixedBits := by decide +kernel
  exact h base r.toFin
theorem psbox (base : Reg) (r : BitVec 8) : Statement (.psbox base r) := by
  unfold Statement
  have h : ∀ (b : Reg) (r : Fin 256), encode (.psbox b (.ofFin r)) &&& Op.psbox.mask = Op.psbox.fixedBits := by decide +kernel
  exact h base r.toFin
theorem pmds (base : Reg) : Statement (.pmds base) := by
  unfold Statement; revert base; decide +kernel
theorem prnd (base : Reg) (r : BitVec 8) : Statement (.prnd base r) := by
  unfold Statement
  have h : ∀ (b : Reg) (r : Fin 256), encode (.prnd b (.ofFin r)) &&& Op.prnd.mask = Op.prnd.fixedBits := by decide +kernel
  exact h base r.toFin
theorem pperm (base : Reg) : Statement (.pperm base) := by
  unfold Statement; revert base; decide +kernel

end Sys2Proof.Laws.RowShape
end

