-- ==== Sys2Proof/Laws/PoseidonUnit.lean ====
section
/-! SUPPORT. The layers of the permutation on residues are the layers on the standard values they represent
(44_poseidon R108, R109, R111, R117). -/

namespace Sys2Proof.Laws

open Sys2Proof.Machine

theorem fact_stark : Fact Config.pStark.Prime := ⟨goodModulus_stark.prime⟩

theorem rc_lt (r : Nat) (i : Fin 3) : Config.rc r i < Config.pStark := by
  rw [Config.rc]; split
  · exact (Config.rcTable _ i).isLt
  · exact goodModulus_stark.pos

theorem val_arcLayer (rc : Nat → Fin 3 → Nat) (r : Nat) (s : Triple) :
    tripleVal (arcLayer rc r s) = stdArc rc r (tripleVal s) := by
  have := fact_stark
  simp only [tripleVal, stdArc]
  refine congrArg tripleOf (funext fun i => ?_)
  rw [tripleGet_tripleOf, arcLayer, tripleGet_tripleOf]
  apply eq_of_cast_eq (val_lt goodModulus_stark.pos _) (Nat.mod_lt _ goodModulus_stark.pos)
  rw [cast_val goodModulus_stark, cast_addMod, cast_mont, ZMod.natCast_mod, Nat.cast_add, cast_val goodModulus_stark,
    add_mul, mul_inv_cancel_right₀ (radix_ne_zero goodModulus_stark)]

theorem val_cube (x : Nat) : val Config.pStark (cube x) = val Config.pStark x ^ 3 % Config.pStark := by
  apply eq_of_cast_eq (val_lt goodModulus_stark.pos _) (Nat.mod_lt _ goodModulus_stark.pos)
  rw [cast_val goodModulus_stark, cube, cast_montMul goodModulus_stark, cast_montMul goodModulus_stark, ZMod.natCast_mod,
    Nat.cast_pow, cast_val goodModulus_stark]
  ring

theorem val_sboxLayer (r : Nat) (s : Triple) : tripleVal (sboxLayer r s) = stdSbox r (tripleVal s) := by
  simp only [tripleVal, stdSbox]
  refine congrArg tripleOf (funext fun i => ?_)
  rw [tripleGet_tripleOf, sboxLayer, tripleGet_tripleOf]
  split
  · exact val_cube _
  · rfl

/-- The S-box set of a round, by its number (44_poseidon R110). -/
theorem inSbox_iff (r : Nat) (i : Fin 3) : inSbox r i = true ↔ r < 4 ∨ 87 ≤ r ∨ i = 2 := by
  simp [inSbox, fullRound, Config.posRF, Config.posRP, Config.posPIdx, or_assoc]

/-- A row of the mixing layer, in the field. -/
theorem cast_mixRow (m : Fin 3 → Fin 3 → Nat) (s : Triple) (i : Fin 3) :
    ((mixRow m s i : Nat) : ZMod Config.pStark) = m i 0 * s.e0 + m i 1 * s.e1 + m i 2 * s.e2 := by
  have := fact_stark
  have h := radix_ne_zero goodModulus_stark
  simp only [mixRow, ZMod.natCast_mod, Nat.cast_add, cast_montMul goodModulus_stark, cast_mont, tripleGet]
  generalize ((Config.radix : Nat) : ZMod Config.pStark) = x at h
  field_simp

theorem val_mixLayer (m : Fin 3 → Fin 3 → Nat) (s : Triple) : tripleVal (mixLayer m s) = stdMix m (tripleVal s) := by
  simp only [tripleVal, stdMix]
  refine congrArg tripleOf (funext fun i => ?_)
  rw [mixLayer, tripleGet_tripleOf]
  apply eq_of_cast_eq (val_lt goodModulus_stark.pos _) (Nat.mod_lt _ goodModulus_stark.pos)
  simp only [cast_val goodModulus_stark, ZMod.natCast_mod, Nat.cast_add, Nat.cast_mul, cast_mixRow, tripleOf, tripleGet]
  ring

theorem val_poseidonRound (rc : Nat → Fin 3 → Nat) (r : Nat) (s : Triple) :
    tripleVal (poseidonRound rc r s) = stdRound rc r (tripleVal s) := by
  rw [poseidonRound, val_mixLayer, val_sboxLayer, val_arcLayer, stdRound]

theorem val_poseidonRounds (rc : Nat → Fin 3 → Nat) (n : Nat) (s : Triple) :
    tripleVal (poseidonRounds rc n s) = stdRounds rc n (tripleVal s) := by
  induction n with
  | zero => rfl
  | succ n ih => rw [poseidonRounds, val_poseidonRound, ih, stdRounds]

end Sys2Proof.Laws
end

