-- ==== Sys2Proof/Laws/Program.lean ====
section
/-! SUPPORT. One command of a program, from before its acceptance to after its response is taken, and a sequence of them. -/

namespace Sys2Proof.Laws

open Sys2Proof.Machine

/-- A command that completed with OK, wrote `y` to `rd` and whose response was taken. -/
structure Issued (s t : State) (rd : Reg) (y : Nat) : Prop where
  value : t.F[rd].toNat = y
  valid : t.V[rd] = true
  frame : ∀ j : Reg, j ≠ rd → t.F[j] = s.F[j] ∧ t.V[j] = s.V[j]
  busy : t.busy = false
  rspValid : t.rspValid = false
  rspStatus : t.rspStatus = 0
  rspData : t.rspData = 0

theorem issue_writes {c : Command} {s : State} {rd : Reg} {y : Nat} (hy : y < 2 ^ 256)
    (h : exec c.1 (s.accept (encode c.1) c.2) = .next ((s.accept (encode c.1) c.2).finish .ok rd y)) :
    ∃ t, issue c s = .next t ∧ Issued s t rd y := by
  have hw := finish_ok (s.accept (encode c.1) c.2) rd hy
  exact ⟨((s.accept (encode c.1) c.2).finish .ok rd y).takeRsp, by rw [issue, h], hw.value, hw.valid, fun j hj => hw.frame j (by simpa using hj), hw.ended.busy, rfl,
    hw.ended.rspStatus, hw.ended.rspData⟩

/-- A command that completed with OK and wrote a triple: after its response is taken the triple is the one written. -/
theorem issue_writesTriple {c : Command} {s : State} {base : Reg} {y : Triple} (hs : TripleReady s base)
    (hy : ∀ i, tripleGet y i < Config.pStark)
    (h : exec c.1 (s.accept (encode c.1) c.2) = .next ((s.accept (encode c.1) c.2).finishTriple .ok base y)) :
    ∃ t, issue c s = .next t ∧ t.triple base = y :=
  ⟨((s.accept (encode c.1) c.2).finishTriple .ok base y).takeRsp, by rw [issue, h],
    (rfl : _ = State.triple (State.finishTriple _ .ok base y) base).trans <|
      wroteTriple_triple (finishTriple_felt (s := s.accept (encode c.1) c.2) ⟨hs.fits, hs.valid, hs.felt⟩ hy)⟩

theorem issue_answers {c : Command} {s : State} {d : Nat}
    (h : exec c.1 (s.accept (encode c.1) c.2) = .next ((s.accept (encode c.1) c.2).finishData .ok d)) :
    ∃ t, issue c s = .next t ∧ t.F = s.F ∧ t.V = s.V ∧ t.busy = false ∧ t.rspValid = false ∧ t.rspStatus = 0 ∧
      t.rspData = BitVec.ofNat 256 d :=
  ⟨((s.accept (encode c.1) c.2).finishData .ok d).takeRsp, by rw [issue, h], rfl, rfl, rfl, rfl, rfl, rfl⟩

theorem issueAll_cons {c : Command} {s t : State} (h : issue c s = .next t) (cs : List Command) :
    issueAll (c :: cs) s = issueAll cs t := by
  rw [issueAll, h]

theorem issueAll_one {c : Command} {s t : State} (h : issue c s = .next t) : issueAll [c] s = .next t :=
  issueAll_cons h []

end Sys2Proof.Laws
end

