-- ==== Sys2Proof/Laws/Reduction.lean ====
section
/-! SUPPORT. The constant of Montgomery reduction is the negated inverse of the modulus modulo a power of two, so the multiple of
P it selects clears the low bits (42_montgomery R95, R98). -/

namespace Sys2Proof.Laws

open Sys2Proof.Machine

theorem two_pow_pred_lt {k : Nat} (hk : 0 < k) : 2 ^ (k - 1) - 1 < 2 ^ k := by
  have : 2 ^ (k - 1) < 2 ^ k := Nat.pow_lt_pow_right (by omega) (by omega)
  have : 0 < 2 ^ (k - 1) := by positivity
  omega

/-- `invPow2` is the inverse of an odd number modulo a power of two. -/
theorem invPow2_spec {p k : Nat} (hp : p % 2 = 1) (hk : 0 < k) : p * invPow2 k p % 2 ^ k = 1 := by
  have hc : Nat.Coprime p (2 ^ k) := Nat.Coprime.pow_right _ (Nat.coprime_two_right.2 (Nat.odd_iff.2 hp))
  have ht := Nat.ModEq.pow_totient hc
  rw [Nat.totient_prime_pow Nat.prime_two hk, show 2 - 1 = 1 from rfl, mul_one] at ht
  have hpos : 0 < 2 ^ (k - 1) := by positivity
  rw [invPow2, powMod_eq _ _ _ _ (two_pow_pred_lt hk), Nat.mul_mod, Nat.mod_mod, ← Nat.mul_mod, ← pow_succ',
    show 2 ^ (k - 1) - 1 + 1 = 2 ^ (k - 1) by omega, ht]
  exact Nat.mod_eq_of_lt (Nat.one_lt_two_pow (by omega))

theorem invPow2_le {p k : Nat} (hk : 0 < k) : invPow2 k p ≤ 2 ^ k := by
  rw [invPow2, powMod_eq _ _ _ _ (two_pow_pred_lt hk)]
  exact (Nat.mod_lt _ (by positivity)).le

/-- The multiple of P that a reduction step adds makes the low k bits zero. -/
theorem low_bits_clear {p k : Nat} (hp : p % 2 = 1) (hk : 0 < k) (t : Nat) :
    (t + t % 2 ^ k * (2 ^ k - invPow2 k p) % 2 ^ k * p) % 2 ^ k = 0 := by
  have hone : ((p * invPow2 k p : Nat) : ZMod (2 ^ k)) = ((1 : Nat) : ZMod (2 ^ k)) := by
    rw [ZMod.natCast_eq_natCast_iff', invPow2_spec hp hk, Nat.mod_eq_of_lt (Nat.one_lt_two_pow (by omega))]
  have hm : ((t % 2 ^ k * (2 ^ k - invPow2 k p) % 2 ^ k : Nat) : ZMod (2 ^ k)) = t * (0 - invPow2 k p) := by
    rw [ZMod.natCast_mod, Nat.cast_mul, ZMod.natCast_mod, Nat.cast_sub (invPow2_le hk), ZMod.natCast_self]
  refine Nat.mod_eq_zero_of_dvd ((ZMod.natCast_eq_zero_iff _ _).1 ?_)
  rw [Nat.cast_mul, Nat.cast_one] at hone
  rw [Nat.cast_add, Nat.cast_mul, hm]
  linear_combination (-(t : ZMod (2 ^ k))) * hone

/-- The low limb is 0 before the shift of a word-serial step (42_montgomery R98). -/
theorem ciosReduced_low {p : Nat} (hp : p % 2 = 1) (t : Nat) : ciosReduced p t % 2 ^ Config.limbBits = 0 :=
  low_bits_clear hp (by decide) t

/-- From a felt and an accumulator below 2P, both sums of a word-serial step stay below 2P times a limb's range
(42_montgomery R98). -/
theorem cios_sums_lt {p a t : Nat} (b i : Nat) (ha : a < p) (ht : t < 2 * p) :
    ciosSum a b i t ≤ ciosReduced p (ciosSum a b i t) ∧
    ciosReduced p (ciosSum a b i t) < 2 * p * 2 ^ Config.limbBits := by
  refine ⟨Nat.le_add_right _ _, ?_⟩
  have hb : limb b i + 1 ≤ 2 ^ Config.limbBits := Nat.mod_lt _ (by positivity)
  have hm : ciosM p (ciosSum a b i t) + 1 ≤ 2 ^ Config.limbBits := Nat.mod_lt _ (by positivity)
  have h1 : a * limb b i ≤ p * limb b i := Nat.mul_le_mul_right _ ha.le
  rw [ciosReduced]
  rw [ciosSum] at hm ⊢
  nlinarith [Nat.mul_le_mul_left p hb, Nat.mul_le_mul_left p hm]

/-- A word-serial step keeps the accumulator below 2P (42_montgomery R98). -/
theorem ciosLoop_lt {p a : Nat} (b : Nat) (ha : a < p) : ∀ n, ciosLoop p a b n < 2 * p
  | 0 => by rw [ciosLoop]; omega
  | n + 1 => Nat.div_lt_of_lt_mul (Nat.mul_comm _ _ ▸ (cios_sums_lt b n ha (ciosLoop_lt b ha n)).2)

/-- The conditional subtraction gives the residue of any value below 2P (42_montgomery R97). -/
theorem condSub_eq_mod {p u : Nat} (h : u < 2 * p) : condSub p u = u % p := by
  rw [condSub]; split
  · next hu => rw [Nat.mod_eq_sub_mod hu, Nat.mod_eq_of_lt (by omega)]
  · next hu => rw [Nat.mod_eq_of_lt (by omega)]

end Sys2Proof.Laws
end

