-- ==== Sys2Proof/Laws/Step.lean ====
section
/-! SUPPORT. What one rising edge can do, said once: reset, or the ports and the completion of the command in flight. -/

namespace Sys2Proof.Laws

open Sys2Proof.Machine

/-- The command in flight ends as its decoded command ends, or as an error. -/
theorem runCurrent_cases (s : State) :
    ∃ t, runCurrent s = .next t ∧ ((∃ i, decode s.curW = .ok i ∧ Ends i s t) ∨
      (∃ e, decode s.curW = .error e) ∧ Failed s t 3) := by
  rw [runCurrent]
  split
  · next i h =>
    obtain ⟨t, ht, he⟩ := exec_ends i s
    exact ⟨t, ht, .inl ⟨i, h, he⟩⟩
  · next e h => exact ⟨_, rfl, .inr ⟨⟨e, h⟩, failed_raise s .illegal⟩⟩

/-- However a command ends, a response waits, nothing is in flight, the host's edges and the counter are as they were, no
valid bit is cleared, the status is one of the five, and an error's data is 0. -/
structure Completed (s t : State) : Prop where
  busy : t.busy = false
  rspValid : t.rspValid = true
  edges : t.edges = s.edges
  freeCtr : t.freeCtr = s.freeCtr
  curW : t.curW = s.curW
  curD : t.curD = s.curD
  valid : ∀ j : Reg, s.V[j] = true → t.V[j] = true
  status : t.rspStatus.toNat ≤ 4
  errorData : t.rspStatus ≠ 0 → t.rspData = 0

theorem completed_of_failed {s t : State} {c : BitVec 4} (hc : c.toNat ≤ 4) (h : Failed s t c) : Completed s t :=
  ⟨h.ended.busy, h.ended.rspValid, h.ended.edges, h.ended.freeCtr, h.ended.curW, h.ended.curD,
    fun j hj => (h.frame j (by simp)).2.trans hj, by rw [h.ended.rspStatus]; exact hc, fun _ => h.ended.rspData⟩

theorem completed_of_ok {s t : State} {d : Word} {l : List Reg} (h : Ended s t 0 d) (hf : KeepsRegs s t l)
    (hv : ∀ j ∈ l, t.V[j] = true) : Completed s t :=
  ⟨h.busy, h.rspValid, h.edges, h.freeCtr, h.curW, h.curD,
    fun j hj => by
      by_cases hm : j ∈ l
      · exact hv j hm
      · exact (hf j hm).2.trans hj,
    by rw [h.rspStatus]; decide, fun h0 => absurd h.rspStatus h0⟩

theorem Ends.completed {i : Instr} {s t : State} (h : Ends i s t) : Completed s t := by
  cases h with
  | illegal _ h => exact completed_of_failed (by decide) h
  | uninit _ _ h => exact completed_of_failed (by decide) h
  | range _ _ _ h => exact completed_of_failed (by decide) h
  | div0 _ _ _ _ h => exact completed_of_failed (by decide) h
  | wrote _ _ _ _ rd y _ h => exact completed_of_ok h.ended h.frame (by simpa using h.valid)
  | wroteTriple _ _ _ _ base y _ h => exact completed_of_ok h.ended h.frame h.valid
  | answered _ _ _ _ rs1 ord _ d h => exact completed_of_ok h.ended h.frame (by simp)

theorem runCurrent_completed (s : State) : ∃ t, runCurrent s = .next t ∧ Completed s t := by
  obtain ⟨t, ht, ⟨i, -, h⟩ | ⟨-, h⟩⟩ := runCurrent_cases s
  · exact ⟨t, ht, h.completed⟩
  · exact ⟨t, ht, completed_of_failed (by decide) h⟩

/-! ## The ports -/

/-- A block with a command in flight and no response waiting ignores its ports. -/
theorem portEdge_inFlight {s : State} {e : Edge} (hb : s.busy = true) (hr : s.rspValid = false) : s.portEdge e = s := by
  simp [State.portEdge, hb, hr, State.cmdReady]

/-- What the ports leave alone. -/
theorem portEdge_F (s : State) (e : Edge) : (s.portEdge e).F = s.F := by
  simp only [State.portEdge]; split <;> split <;> rfl
theorem portEdge_V (s : State) (e : Edge) : (s.portEdge e).V = s.V := by
  simp only [State.portEdge]; split <;> split <;> rfl
theorem portEdge_rspStatus (s : State) (e : Edge) : (s.portEdge e).rspStatus = s.rspStatus := by
  simp only [State.portEdge]; split <;> split <;> rfl
theorem portEdge_rspData (s : State) (e : Edge) : (s.portEdge e).rspData = s.rspData := by
  simp only [State.portEdge]; split <;> split <;> rfl
theorem portEdge_edges (s : State) (e : Edge) : (s.portEdge e).edges = s.edges := by
  simp only [State.portEdge]; split <;> split <;> rfl
theorem portEdge_freeCtr (s : State) (e : Edge) : (s.portEdge e).freeCtr = s.freeCtr := by
  simp only [State.portEdge]; split <;> split <;> rfl

/-! ## The edge and the step -/

/-- What one edge can do. -/
theorem edgeStep_cases (e : Edge) (s : State) : ∃ t, edgeStep e s = .next t ∧
    ((e.rst = true ∧ t = s.resetEdge) ∨
      (e.rst = false ∧ s.busy = true ∧ e.done = true ∧ runCurrent (s.portEdge e) = .next t ∧
        Completed (s.portEdge e) t) ∨
      (e.rst = false ∧ ¬ (s.busy = true ∧ e.done = true) ∧ t = s.portEdge e)) := by
  rw [edgeStep]
  by_cases hr : e.rst = true
  · exact ⟨_, by rw [if_pos hr], .inl ⟨hr, rfl⟩⟩
  have hr' : e.rst = false := by simpa using hr
  rw [if_neg hr]
  by_cases hb : s.busy = true ∧ e.done = true
  · obtain ⟨t, ht, hc⟩ := runCurrent_completed (s.portEdge e)
    exact ⟨t, by rw [if_pos (by simp [hb.1, hb.2])]; exact ht, .inr (.inl ⟨hr', hb.1, hb.2, ht, hc⟩)⟩
  · exact ⟨_, by rw [if_neg (by simpa using hb)], .inr (.inr ⟨hr', hb, rfl⟩)⟩

/-- With a command in flight, its latency run out and no reset, a step runs it. -/
theorem step_runs {s : State} (hb : s.busy = true) (hr : s.rspValid = false) (h1 : s.nextEdge.rst = false)
    (h2 : s.nextEdge.done = true) : step s = runCurrent s.dropEdge := by
  rw [step, edgeStep, h1, h2, portEdge_inFlight (by simpa) (by simpa)]
  simp [hb]

theorem reset_V (j : Reg) : State.reset.V[j] = false := by
  show (Vector.replicate 8 false)[j.val] = false
  simp

/-! ## What a meaning carries along: the fields it neither reads nor writes -/

theorem finish_curD (s : State) (d : Word) (st : Status) (rd : Reg) (y : Nat) :
    { s with curD := d }.finish st rd y = { s.finish st rd y with curD := d } := by
  simp only [State.finish]; split <;> rfl
theorem finishData_curD (s : State) (d : Word) (st : Status) (y : Nat) :
    { s with curD := d }.finishData st y = { s.finishData st y with curD := d } := by
  simp only [State.finishData]; split <;> rfl
theorem finishTriple_curD (s : State) (d : Word) (st : Status) (base : Reg) (y : Triple) :
    { s with curD := d }.finishTriple st base y = { s.finishTriple st base y with curD := d } := by
  simp only [State.finishTriple]; split <;> rfl
theorem finish_edges (s : State) (es : List Edge) (st : Status) (rd : Reg) (y : Nat) :
    { s with edges := es }.finish st rd y = { s.finish st rd y with edges := es } := by
  simp only [State.finish]; split <;> rfl
theorem finishData_edges (s : State) (es : List Edge) (st : Status) (y : Nat) :
    { s with edges := es }.finishData st y = { s.finishData st y with edges := es } := by
  simp only [State.finishData]; split <;> rfl
theorem finishTriple_edges (s : State) (es : List Edge) (st : Status) (base : Reg) (y : Triple) :
    { s with edges := es }.finishTriple st base y = { s.finishTriple st base y with edges := es } := by
  simp only [State.finishTriple]; split <;> rfl
theorem finish_response (s : State) (v : Bool) (c : BitVec 4) (d : Word) (st : Status) (rd : Reg) (y : Nat) :
    { s with rspValid := v, rspStatus := c, rspData := d }.finish st rd y = s.finish st rd y := by
  simp only [State.finish]; split <;> rfl
theorem finishData_response (s : State) (v : Bool) (c : BitVec 4) (d : Word) (st : Status) (y : Nat) :
    { s with rspValid := v, rspStatus := c, rspData := d }.finishData st y = s.finishData st y := by
  simp only [State.finishData]; split <;> rfl
theorem finishTriple_response (s : State) (v : Bool) (c : BitVec 4) (d : Word) (st : Status) (base : Reg) (y : Triple) :
    { s with rspValid := v, rspStatus := c, rspData := d }.finishTriple st base y = s.finishTriple st base y := by
  simp only [State.finishTriple]; split <;> rfl

/-! ## Two states that differ only where nothing can see -/

theorem writeReg_visible {s t : State} (hV : t.V = s.V) (hF : ∀ j : Reg, s.V[j] = true → t.F[j] = s.F[j]) (rd : Reg)
    (y : Word) : (t.writeReg rd y).V = (s.writeReg rd y).V ∧
      ∀ j : Reg, (s.writeReg rd y).V[j] = true → (t.writeReg rd y).F[j] = (s.writeReg rd y).F[j] := by
  refine ⟨by simp [hV], fun j hj => ?_⟩
  by_cases h : rd.val = j.val
  · simp [h]
  · simp only [writeReg_F, writeReg_V, Fin.getElem_fin, Vector.getElem_set_ne _ _ h] at hj ⊢
    exact hF j hj

theorem respond_visible {s t : State} (h : SameVisible s t) (st : Status) (d : Word) :
    SameVisible (s.respond st d) (t.respond st d) :=
  ⟨h.V, h.F, rfl, by simp, rfl, rfl, rfl, h.edges, h.freeCtr⟩

theorem finish_visible {s t : State} (h : SameVisible s t) (st : Status) (rd : Reg) (y : Nat) :
    SameVisible (s.finish st rd y) (t.finish st rd y) := by
  simp only [State.finish]; split
  · obtain ⟨a, b⟩ := writeReg_visible h.V h.F rd (BitVec.ofNat 256 y)
    exact ⟨a, b, rfl, by simp, rfl, rfl, rfl, h.edges, h.freeCtr⟩
  · exact respond_visible h st 0

theorem finish_visible_error {s t : State} (h : SameVisible s t) {st : Status} (hst : st ≠ .ok) (rd : Reg) (y z : Nat) :
    SameVisible (s.finish st rd y) (t.finish st rd z) := by
  rw [State.finish, State.finish, if_neg hst, if_neg hst]
  exact respond_visible h st 0

theorem finishTriple_visible {s t : State} (h : SameVisible s t) (st : Status) (base : Reg) (y : Triple) :
    SameVisible (s.finishTriple st base y) (t.finishTriple st base y) := by
  simp only [State.finishTriple]; split
  · obtain ⟨a, b⟩ := writeReg_visible h.V h.F base (BitVec.ofNat 256 y.e0)
    obtain ⟨a, b⟩ := writeReg_visible a b (base + 1) (BitVec.ofNat 256 y.e1)
    obtain ⟨a, b⟩ := writeReg_visible a b (base + 2) (BitVec.ofNat 256 y.e2)
    exact ⟨a, b, rfl, by simp, rfl, rfl, rfl, h.edges, h.freeCtr⟩
  · exact respond_visible h st 0

theorem finishTriple_visible_error {s t : State} (h : SameVisible s t) {st : Status} (hst : st ≠ .ok) (base : Reg)
    (y z : Triple) : SameVisible (s.finishTriple st base y) (t.finishTriple st base z) := by
  rw [State.finishTriple, State.finishTriple, if_neg hst, if_neg hst]
  exact respond_visible h st 0

theorem finishData_visible {s t : State} (h : SameVisible s t) (st : Status) (y : Nat) :
    SameVisible (s.finishData st y) (t.finishData st y) := by
  simp only [State.finishData]; split <;> exact respond_visible h _ _

end Sys2Proof.Laws
end

