-- ==== Sys2Proof/Machine/Assembler.lean ====
section
/-! DEFINITION. The assembler text of a command, written and read (30_encoding R74). The text is no part of the block: no meaning
uses this file. -/

namespace Sys2Proof.Machine

/-- `f0` .. `f7`. -/
def regText (r : Reg) : String := "f" ++ toString r.val

/-- The field suffix. -/
def fieldText : PrimeField → String
  | .gen => ".G"
  | .stark => ".S"

/-- The byte-order suffix. -/
def orderText : ByteOrder → String
  | .le => ".LE"
  | .be => ".BE"

def unaryText (name : String) (f : PrimeField) (rd rs1 : Reg) : String :=
  name ++ fieldText f ++ " " ++ regText rd ++ ", " ++ regText rs1

def binaryText (name : String) (f : PrimeField) (rd rs1 rs2 : Reg) : String :=
  unaryText name f rd rs1 ++ ", " ++ regText rs2

def roundText (name : String) (base : Reg) (r : BitVec 8) : String :=
  name ++ " " ++ regText base ++ ", " ++ toString r.toNat

/-- The text of a command, destination first. -/
def asmText : Instr → String
  | .fld rd o => "FLD" ++ orderText o ++ " " ++ regText rd
  | .fst rs1 o => "FST" ++ orderText o ++ " " ++ regText rs1
  | .fconst f rd k => "FCONST" ++ fieldText f ++ " " ++ regText rd ++ ", " ++ toString k.num
  | .tomont f rd rs1 => unaryText "TOMONT" f rd rs1
  | .frommont f rd rs1 => unaryText "FROMMONT" f rd rs1
  | .fadd f rd rs1 rs2 => binaryText "FADD" f rd rs1 rs2
  | .fsub f rd rs1 rs2 => binaryText "FSUB" f rd rs1 rs2
  | .fmul f rd rs1 rs2 => binaryText "FMUL" f rd rs1 rs2
  | .fredc f rd rs1 rs2 => binaryText "FREDC" f rd rs1 rs2
  | .finv f rd rs1 => unaryText "FINV" f rd rs1
  | .fdiv f rd rs1 rs2 => binaryText "FDIV" f rd rs1 rs2
  | .parc base r => roundText "PARC" base r
  | .psbox base r => roundText "PSBOX" base r
  | .pmds base => "PMDS " ++ regText base
  | .prnd base r => roundText "PRND" base r
  | .pperm base => "PPERM " ++ regText base

/-- The data word after an FLD, as a hexadecimal literal in the ORD = 0 view. -/
def dataText (d : Word) : String := "; data = 0x" ++ String.ofList (Nat.toDigits 16 d.toNat)

/-! ## Reading -/

/-- The tokens of a line: what stands between blanks, commas and semicolons. -/
def tokensFrom : List Char → List Char → List (List Char)
  | acc, [] => if acc.isEmpty then [] else [acc.reverse]
  | acc, c :: cs =>
    if c = ' ' || c = ',' || c = ';' then
      (if acc.isEmpty then [] else [acc.reverse]) ++ tokensFrom [] cs
    else tokensFrom (c :: acc) cs

/-- The value of a digit in a base up to 16. -/
def digitOf (base : Nat) (c : Char) : Option Nat :=
  let n := c.toNat
  let d :=
    if '0'.toNat ≤ n && n ≤ '9'.toNat then n - '0'.toNat
    else if 'a'.toNat ≤ n && n ≤ 'f'.toNat then n - 'a'.toNat + 10
    else if 'A'.toNat ≤ n && n ≤ 'F'.toNat then n - 'A'.toNat + 10
    else 16
  if d < base then some d else none

def digitsOf (base : Nat) : Nat → List Char → Option Nat
  | acc, [] => some acc
  | acc, c :: cs => (digitOf base c).bind fun d => digitsOf base (acc * base + d) cs

/-- A decimal or hexadecimal number. -/
def parseNum : List Char → Option Nat
  | [] => none
  | '0' :: 'x' :: c :: cs => digitsOf 16 0 (c :: cs)
  | cs => digitsOf 10 0 cs

def parseReg : List Char → Option Reg
  | ['f', c] => (digitOf 8 c).map (Fin.ofNat 8)
  | _ => none

/-- k = 0 .. 3, or the names ZERO, ONE, R2, MOD. -/
def parseConst (cs : List Char) : Option ConstIdx :=
  match String.ofList cs with
  | "0" | "ZERO" => some .zero
  | "1" | "ONE" => some .one
  | "2" | "R2" => some .r2
  | "3" | "MOD" => some .modulus
  | _ => none

def parseRound (cs : List Char) : Option (BitVec 8) :=
  (parseNum cs).bind fun n => if n < 256 then some (BitVec.ofNat 8 n) else none

def parseField : List Char → Option PrimeField
  | ['.', 'G'] => some .gen
  | ['.', 'S'] => some .stark
  | _ => none

def parseOrder : List Char → Option ByteOrder
  | ['.', 'L', 'E'] => some .le
  | ['.', 'B', 'E'] => some .be
  | _ => none

/-- A command from its mnemonic, its suffix with the dot, and its operands. -/
def parseOperands (name : String) (suffix : List Char) (ops : List (List Char)) : Option Instr :=
  match name, ops with
  | "FLD", [rd] => do return .fld (← parseReg rd) (← parseOrder suffix)
  | "FST", [rs1] => do return .fst (← parseReg rs1) (← parseOrder suffix)
  | "FCONST", [rd, k] => do return .fconst (← parseField suffix) (← parseReg rd) (← parseConst k)
  | "TOMONT", [rd, a] => do return .tomont (← parseField suffix) (← parseReg rd) (← parseReg a)
  | "FROMMONT", [rd, a] => do return .frommont (← parseField suffix) (← parseReg rd) (← parseReg a)
  | "FINV", [rd, a] => do return .finv (← parseField suffix) (← parseReg rd) (← parseReg a)
  | "FADD", [rd, a, b] => do return .fadd (← parseField suffix) (← parseReg rd) (← parseReg a) (← parseReg b)
  | "FSUB", [rd, a, b] => do return .fsub (← parseField suffix) (← parseReg rd) (← parseReg a) (← parseReg b)
  | "FMUL", [rd, a, b] => do return .fmul (← parseField suffix) (← parseReg rd) (← parseReg a) (← parseReg b)
  | "FREDC", [rd, a, b] => do return .fredc (← parseField suffix) (← parseReg rd) (← parseReg a) (← parseReg b)
  | "FDIV", [rd, a, b] => do return .fdiv (← parseField suffix) (← parseReg rd) (← parseReg a) (← parseReg b)
  | "PARC", [b, r] => if suffix.isEmpty then do return .parc (← parseReg b) (← parseRound r) else none
  | "PSBOX", [b, r] => if suffix.isEmpty then do return .psbox (← parseReg b) (← parseRound r) else none
  | "PMDS", [b] => if suffix.isEmpty then do return .pmds (← parseReg b) else none
  | "PRND", [b, r] => if suffix.isEmpty then do return .prnd (← parseReg b) (← parseRound r) else none
  | "PPERM", [b] => if suffix.isEmpty then do return .pperm (← parseReg b) else none
  | _, _ => none

/-- A line of assembly: the command, and the data word of an FLD when one is written after it. An operand that would make an
illegal word is refused (30_encoding R76). -/
def parseLine (line : String) : Option (Instr × Option Word) :=
  match tokensFrom [] line.toList with
  | [] => none
  | head :: rest =>
    let name := head.takeWhile (fun c => c != '.')
    let suffix := head.dropWhile (fun c => c != '.')
    let legalOnly := fun (i : Instr) (d : Option Word) => if i.wf then some (i, d) else none
    match rest with
    | [rd, ['d', 'a', 't', 'a'], ['='], v] => do
      let i ← parseOperands (String.ofList name) suffix [rd]
      let n ← parseNum v
      if name = ['F', 'L', 'D'] && n < 2 ^ 256 then legalOnly i (some (BitVec.ofNat 256 n)) else none
    | ops => do legalOnly (← parseOperands (String.ofList name) suffix ops) none

end Sys2Proof.Machine
end

