-- ==== Sys2Proof/Tests/Slice0.lean ====
section
/-! SUPPORT. Tests. Every expected value is the spec's own: the decoding table L2.1, the command vectors V1 to V73 and G1 to G9,
the reset vectors S1 to S6 and the worked examples of 95_test_vectors, the examples of 30_encoding R74 and R76, and the constants
of 10_state R29. The witnesses at the end show a concrete case of the hypotheses of each statement. -/

set_option Elab.async false

namespace Sys2Proof.Tests

open Sys2Proof.Machine

/-! ## Helpers -/

/-- The reset state with these registers written, and a command in flight. -/
def withRegs (l : List (Reg × Nat)) : State :=
  l.foldl (fun s x => s.writeReg x.1 (BitVec.ofNat 256 x.2)) { State.reset with busy := true }

/-- Register, status and data of a result; a result that is no next state gives values no vector expects. -/
def outReg : Result → Reg → Nat
  | .next t, i => (t.reg i).toNat
  | .fault _, _ => 2 ^ 256
  | .refused _, _ => 2 ^ 256
def outStatus : Result → BitVec 4
  | .next t => t.rspStatus
  | .fault _ => 15
  | .refused _ => 15
def outData : Result → Word
  | .next t => t.rspData
  | .fault _ => 1
  | .refused _ => 1

/-- Residues of 95_test_vectors, Reference values. -/
def m1 : Nat := 0x07fffffffffffdf0ffffffffffffffffffffffffffffffffffffffffffffffe1
def m2 : Nat := 0x07fffffffffffbd0ffffffffffffffffffffffffffffffffffffffffffffffc1
def m3 : Nat := 0x07fffffffffff9b0ffffffffffffffffffffffffffffffffffffffffffffffa1
def m5 : Nat := 0x07fffffffffff570ffffffffffffffffffffffffffffffffffffffffffffff61
def m6 : Nat := 0x07fffffffffff350ffffffffffffffffffffffffffffffffffffffffffffff41
def m7 : Nat := 0x07fffffffffff130ffffffffffffffffffffffffffffffffffffffffffffff21
def m8 : Nat := 0x07ffffffffffef10ffffffffffffffffffffffffffffffffffffffffffffff01
def m27 : Nat := 0x07ffffffffffc6b0fffffffffffffffffffffffffffffffffffffffffffffca1
def m42 : Nat := 0x07ffffffffffa6d0fffffffffffffffffffffffffffffffffffffffffffffac1
def mNeg1 : Nat := 0x0000000000000220000000000000000000000000000000000000000000000020
def mNeg3 : Nat := 0x0000000000000660000000000000000000000000000000000000000000000060
def mHalf : Nat := 0x07ffffffffffff00fffffffffffffffffffffffffffffffffffffffffffffff1
def P : Nat := 0x0800000000000011000000000000000000000000000000000000000000000001
def allOnes : Nat := 0xffffffffffffffffffffffffffffffffffffffffffffffffffffffffffffffff

/-! ## WellFormed refuses -/

theorem test_wf_triple : (Instr.pmds 5).wf = true ∧ (Instr.pmds 6).wf = false ∧ (Instr.pperm 7).wf = false := by decide
theorem test_wf_round : (Instr.parc 0 90).wf = true ∧ (Instr.parc 0 91).wf = false ∧ (Instr.prnd 0 255).wf = false := by decide
theorem test_wf_triple_and_round : (Instr.psbox 6 0).wf = false ∧ (Instr.psbox 0 91).wf = false := by decide
theorem test_assemble_refuses : assemble (.pperm 6) = none ∧ assemble (.pperm 5) = some 0x7E800000 := by decide

/-! ## Decoding, from words the spec writes out (L2.1, L2.2) -/

theorem test_decode_load_store : decodeTableWord 32 0x00000000 = some (.fld 0 .le) ∧
    decodeTableWord 32 0x00800001 = some (.fld 1 .be) ∧ decodeTableWord 32 0x08300000 = some (.fst 3 .le) ∧
    decodeTableWord 32 0x08300001 = some (.fst 3 .be) := by decide
theorem test_decode_convert : decodeTableWord 32 0x10000001 = some (.fconst .gen 0 .one) ∧
    decodeTableWord 32 0x14000002 = some (.fconst .stark 0 .r2) ∧ decodeTableWord 32 0x1D100000 = some (.tomont .stark 2 1) ∧
    decodeTableWord 32 0x20800000 = some (.frommont .gen 1 0) := by decide
theorem test_decode_arith : decodeTableWord 32 0x29020000 = some (.fadd .gen 2 0 1) ∧
    decodeTableWord 32 0x34820000 = some (.fsub .stark 1 0 1) ∧ decodeTableWord 32 0x3D020000 = some (.fmul .stark 2 0 1) ∧
    decodeTableWord 32 0x45020000 = some (.fredc .stark 2 0 1) := by decide
theorem test_decode_inverse : decodeTableWord 32 0x4C800000 = some (.finv .stark 1 0) ∧
    decodeTableWord 32 0x56340000 = some (.fdiv .stark 4 3 2) := by decide
theorem test_decode_poseidon : decodeTableWord 32 0x5C00005A = some (.parc 0 90) ∧
    decodeTableWord 32 0x64000056 = some (.psbox 0 86) ∧ decodeTableWord 32 0x6C000000 = some (.pmds 0) ∧
    decodeTableWord 32 0x76800000 = some (.prnd 5 0) ∧ decodeTableWord 32 0x7E800000 = some (.pperm 5) := by decide
theorem test_decode_rejects : decode 0x80000000 = .error .reservedOpcode ∧ decode 0xFFFFFFFF = .error .reservedOpcode ∧
    decode 0x3D020100 = .error .rsvNonzero ∧ decode 0x04000000 = .error .fieldBit ∧ decode 0x68000000 = .error .fieldBit ∧
    decode 0x08B00000 = .error .reservedZero ∧ decode 0x7F000000 = .error .tripleBase ∧
    decode 0x5C00005B = .error .roundIndex := ⟨rfl, rfl, rfl, rfl, rfl, rfl, rfl, rfl⟩
theorem test_illegal_words : [0x00000002, 0x04000000, 0x00100000, 0x08B00000, 0x0C300000, 0x14000004, 0x1C920000, 0x3D020100,
    0x3D020001, 0x58000000, 0x5C00005B, 0x5C000100, 0x68000000, 0x7F000000, 0x7C000001, 0x80000000, 0xF8000000,
    0xFFFFFFFF].all (fun w => !legal w) = true := by decide
theorem test_legal_words : [0x00000000, 0x00000001, 0x08300000, 0x10000001, 0x14000003, 0x1C900000, 0x3D020000, 0x5C00005A,
    0x6C000000, 0x7E800000].all legal = true := by decide
theorem test_encode : encode (.fmul .stark 2 0 1) = 0x3D020000 ∧ encode (.fdiv .stark 4 3 2) = 0x56340000 ∧
    encode (.psbox 0 90) = 0x6400005A ∧ encode (.fst 3 .be) = 0x08300001 := by decide
theorem test_asm : asmText (.fmul .stark 2 0 1) = "FMUL.S f2, f0, f1" ∧ asmText (.fld 1 .be) = "FLD.BE f1" ∧
    asmText (.parc 0 90) = "PARC f0, 90" := by decide +kernel

theorem test_parse : parseLine "FDIV.S f4, f3, f2" = some (.fdiv .stark 4 3 2, none) ∧
    parseLine "FCONST.G f0, MOD" = some (.fconst .gen 0 .modulus, none) ∧
    parseLine "PRND f5, 0x5a" = some (.prnd 5 90, none) ∧ parseLine "PRND f6, 0" = none ∧
    parseLine "FLD.LE f0; data = 0x2a" = some (.fld 0 .le, some 42) := by decide +kernel

/-! ## Constants (10_state R29) and the datapath's own (95_test_vectors, Reference values) -/

theorem test_reference_values : mont P 1 = m1 ∧ mont P 42 = m42 ∧ mont P (P - 1) = mNeg1 ∧
    rInv P = 0x0040000000000001100000000000012100000000000000000000000000000000 := by decide +kernel
theorem test_n_prime : nPrime P = 0x0800000000000010ffffffffffffffffffffffffffffffffffffffffffffffff ∧
    nPrime0 P = 0xffffffffffffffff := by decide +kernel
theorem test_datapaths : cios P m6 m7 = m42 ∧ redc P (m6 * m7) = m42 ∧ fermatInverter P m2 = mHalf ∧
    euclidInverter P m2 = mHalf := by decide +kernel
theorem test_mixPath : mixPath ⟨m1, m2, m3⟩ = ⟨m8, m2, mNeg3⟩ := by decide +kernel

/-! ## Command vectors -/

theorem test_fld_be : outReg (exec (.fld 1 .be) { withRegs [] with curD := 0x2a <<< 248 }) 1 = 42 := by decide +kernel  -- V2
theorem test_fld_raw : outReg (exec (.fld 7 .le) { withRegs [] with curD := BitVec.ofNat 256 allOnes }) 7 = allOnes := by
  decide +kernel  -- V3
theorem test_fst_be : outData (exec (.fst 3 .be) (withRegs [(3, 42)])) = 0x2a <<< 248 := by decide +kernel  -- V6
theorem test_fst_uninit : outStatus (exec (.fst 3 .le) (withRegs [])) = 4 := by decide +kernel  -- V7
theorem test_fconst_r2 : outReg (exec (.fconst .stark 0 .r2) (withRegs [])) 0 =
    0x07ffd4ab5e008810ffffffffff6f800000000001330ffffffffffd737e000401 := by decide +kernel  -- V10
theorem test_fconst_gen : Config.radix % Config.modulus .gen = 2 ^ 256 - Config.modulus .gen := by  -- G2
  have h1 := Config.genPrime.lower
  have h2 := Config.genPrime.upper
  simp only [Config.radix, Config.modulus]
  rw [Nat.mod_eq_sub_mod (by omega), Nat.mod_eq_of_lt (by omega)]
theorem test_tomont_reduces : outReg (exec (.tomont .stark 2 1) (withRegs [(1, allOnes)])) 2 =
    0x07ffd4ab5e008a30ffffffffff6f800000000001330ffffffffffd737e000421 := by decide +kernel  -- V14
theorem test_tomont_in_place : outReg (exec (.tomont .stark 1 1) (withRegs [(1, 42)])) 1 = m42 := by decide +kernel  -- V12
theorem test_frommont : outReg (exec (.frommont .stark 3 2) (withRegs [(2, mNeg1)])) 3 = P - 1 := by decide +kernel  -- V19
theorem test_frommont_range : outStatus (exec (.frommont .stark 3 2) (withRegs [(2, P)])) = 2 := by decide +kernel  -- V18
theorem test_fadd_wraps : outReg (exec (.fadd .stark 2 0 1) (withRegs [(0, m1), (1, mNeg1)])) 2 = 0 := by decide +kernel  -- V21
theorem test_fadd_gen_carry (a : Nat) (h : a + 1 = Config.modulus .gen) :
    addMod (Config.modulus .gen) a a + 2 = Config.modulus .gen := by  -- G3
  have h1 := Config.genPrime.lower
  simp only [addMod, Config.modulus] at *
  rw [Nat.mod_eq_sub_mod (by omega), Nat.mod_eq_of_lt (by omega)]
  omega
theorem test_fsub_wraps : outReg (exec (.fsub .stark 1 0 1) (withRegs [(0, 0), (1, m1)])) 1 = mNeg1 := by decide +kernel  -- V28
theorem test_fsub : outReg (exec (.fsub .stark 2 0 1) (withRegs [(0, m3), (1, m2)])) 2 = m1 := by decide +kernel  -- V26
theorem test_fmul : outReg (exec (.fmul .stark 2 0 1) (withRegs [(0, m6), (1, m7)])) 2 = m42 := by decide +kernel  -- V30
theorem test_fmul_top : outReg (exec (.fmul .stark 2 0 1) (withRegs [(0, P - 1), (1, P - 1)])) 2 =
    0x0040000000000001100000000000012100000000000000000000000000000000 := by decide +kernel  -- V33
theorem test_fredc_top : outReg (exec (.fredc .stark 2 0 1) (withRegs [(0, allOnes), (1, P - 1)])) 2 =
    0x07c000000000000feffffffffffffedf00000000000000000000000000000001 := by decide +kernel  -- V38
theorem test_fredc_range : outStatus (exec (.fredc .stark 2 0 1) (withRegs [(0, 5), (1, P)])) = 2 := by decide +kernel  -- V41
theorem test_finv : outReg (exec (.finv .stark 1 0) (withRegs [(0, m2)])) 1 = mHalf := by decide +kernel  -- V42
theorem test_finv_zero : outStatus (exec (.finv .stark 1 0) (withRegs [(0, 0)])) = 1 := by decide +kernel  -- V46
theorem test_fdiv : outReg (exec (.fdiv .stark 2 0 1) (withRegs [(0, m42), (1, m6)])) 2 = m7 := by decide +kernel  -- V47
theorem test_fdiv_priority : outStatus (exec (.fdiv .stark 2 0 1) (withRegs [(0, P), (1, 0)])) = 2 ∧
    outStatus (exec (.fdiv .stark 2 0 1) (withRegs [(1, 0)])) = 4 := by decide +kernel  -- V53, V54
theorem test_parc : arcLayer (fun r i => 3 * r + i + 1) 0 ⟨mNeg1, 2 * mNeg1, mNeg3⟩ = ⟨0, 0, 0⟩ := by decide +kernel  -- V73
theorem test_psbox_partial : exec (.psbox 0 4) (withRegs [(0, m1), (1, m2), (2, m3)]) =
    .next ((withRegs [(0, m1), (1, m2), (2, m27)]).respond .ok 0) := by
  simp only [exec, execPsbox]; exact congrArg Host.Outcome.next (by decide +kernel)  -- V57
theorem test_psbox_full : outReg (exec (.psbox 0 90) (withRegs [(0, m1), (1, m2), (2, m3)])) 1 = m8 := by decide +kernel  -- V58
theorem test_pmds : outReg (exec (.pmds 0) (withRegs [(0, m1), (1, m2), (2, m3)])) 2 = mNeg3 := by decide +kernel  -- V60
theorem test_pmds_range : outStatus (exec (.pmds 0) (withRegs [(0, m1), (1, P), (2, m3)])) = 2 := by decide +kernel  -- V69
theorem test_prnd : poseidonRound (fun r i => 3 * r + i + 1) 0 ⟨m1, m2, m3⟩ =
    ⟨0x07fffffffffd7a10ffffffffffffffffffffffffffffffffffffffffffffda01,
      0x07fffffffffeac10ffffffffffffffffffffffffffffffffffffffffffffec01,
      0x000000000002fd00000000000000000000000000000000000000000000002d00⟩ := by decide +kernel  -- V71
theorem test_prnd_illegal : outStatus (exec (.prnd 6 0) (withRegs [(5, m1), (6, m2), (7, m3)])) = 3 := by decide +kernel  -- V66
theorem test_pperm : poseidonPerm (fun _ _ => 0) ⟨m1, m2, m3⟩ =
    ⟨0x04994047ed8e2143084e36a1dac35e0e02ea45cdb92444014b2638d4f727fa03,
      0x04fa08f0022f94c2523c61536314c02c0764e5d5507da898258ab62d2f64abf7,
      0x017bd61a4ce0a075e94fd44bb97aaee306e63bf0a765caaa19bd926a2e114619⟩ := by decide +kernel  -- V64
theorem test_pperm_uninit : outStatus (exec (.pperm 0) (withRegs [(0, 0)])) = 4 := by decide +kernel  -- as S3

/-! ## The step -/

theorem test_step_uninit : outStatus (step (State.reset.withFetchWord 32 0x08000000)) = 4 := by decide  -- S1
theorem test_step_illegal : outStatus (step (State.reset.withFetchWord 32 0x80000000)) = 3 := by decide  -- L2.1
theorem test_accept : (match step { State.reset with edges := commandEdges (.fld 0 .le, 6) } with
    | .next t => t.busy && t.curW == 0 && t.curD == 6
    | .fault _ => false
    | .refused _ => false) = true := by decide

/-! ## Witnesses: concrete cases that meet the hypotheses of each statement -/

/-- Two valid felts, the larger P − 1, and a triple. -/
def ready : State := withRegs [(0, m2), (1, P - 1), (2, m3)]

theorem ready_triple : TripleReady ready 0 := ⟨by decide, by decide, by decide +kernel⟩

/-- A command in flight, its word `w`, and its latency run out at the next edge. -/
def inFlight (w : CmdWord) : State := { ready with curW := w, edges := [Edge.quiet] }

/-- Rising edges with nothing on the pins, and one that presents `w`. -/
def idlePins : Pins := ⟨false, false, 0, 0, false⟩
def presents (w : CmdWord) : Pins := ⟨false, true, w, 0, false⟩

theorem witness_DecodeOfEncode : (Instr.prnd 5 90).wf = true ∧ (Instr.fadd .gen 7 0 7).wf = true := by decide
theorem witness_EncodeOfDecode : decode 0x7E800000 = .ok (.pperm 5) ∧ decode 0x5C00005A = .ok (.parc 0 90) := ⟨rfl, rfl⟩
theorem witness_OpcodeRowsAreDisjoint : (0x3D020000 : CmdWord) &&& Op.fmul.mask = Op.fmul.fixedBits ∧
    legal 0x3D020000 = true := by decide
theorem witness_ResetEdgeClears : ({ Edge.quiet with rst := true } : Edge).rst = true := rfl
theorem witness_ResetStateIsIdle : (Instr.pmds 5).wf = true ∧ instrReads (.pmds 5) ≠ [] := by decide
theorem witness_PortsFollowTheHandshake : Edge.quiet.rst = false ∧
    (State.reset.busy = false ∧ State.reset.rspValid = false) ∧
    (({ State.reset with rspValid := true } : State).busy = false ∧ ({ State.reset with rspValid := true } : State).rspValid = true) ∧
    (ready.busy = true ∧ ready.rspValid = false ∧ ({ Edge.quiet with done := false } : Edge).done = false) := by decide
theorem witness_NothingHappensWithoutTheHost : State.reset.edges = [] ∧ State.reset.busy = false := by decide
theorem witness_StepRunsDecodedCommand : (inFlight 0x2D020000).busy = true ∧ (inFlight 0x2D020000).rspValid = false ∧
    (inFlight 0x2D020000).nextEdge.rst = false ∧ (inFlight 0x2D020000).nextEdge.done = true ∧
    decode (inFlight 0x2D020000).curW = .ok (.fadd .stark 2 0 1) := ⟨rfl, rfl, rfl, rfl, rfl⟩
theorem witness_IllegalWordWritesNothing : 0x10 ≤ (opField 0x80000000).toNat ∧ rsvField 0x5C000100 ≠ 0 ∧
    (inFlight 0x7F000000).busy = true ∧ (inFlight 0x7F000000).rspValid = false ∧
    (inFlight 0x7F000000).nextEdge.rst = false ∧ (inFlight 0x7F000000).nextEdge.done = true ∧
    legal (inFlight 0x7F000000).curW = false := by decide
theorem witness_FetchedWordRunsNext : State.reset.edges = [] ∧ decodeTableWord 32 0x14000003 = some (.fconst .stark 0 .modulus) := by
  decide
theorem witness_FstAnswersTheBytes : ready.V[(1 : Reg)] = true ∧ 31 < 32 := by decide
theorem witness_TomontReducesAnyPattern : (withRegs [(7, allOnes)]).V[(7 : Reg)] = true := by decide
theorem witness_FrommontWritesTheStandardValue : ready.V[(1 : Reg)] = true ∧
    ready.F[(1 : Reg)].toNat < Config.modulus .stark := by decide +kernel
theorem witness_FaddFsubWriteSumAndDifference : ready.V[(0 : Reg)] = true ∧ ready.V[(1 : Reg)] = true ∧
    ready.F[(0 : Reg)].toNat < Config.modulus .stark ∧ ready.F[(1 : Reg)].toNat < Config.modulus .stark := by decide +kernel
theorem witness_FmulWritesTheMontgomeryProduct : ready.V[(1 : Reg)] = true ∧ ready.V[(2 : Reg)] = true ∧
    ready.F[(1 : Reg)].toNat < Config.modulus .stark ∧ ready.F[(2 : Reg)].toNat < Config.modulus .stark := by decide +kernel
theorem witness_FredcReducesTheWideValue : (withRegs [(0, allOnes), (1, P - 1)]).V[(0 : Reg)] = true ∧
    (withRegs [(0, allOnes), (1, P - 1)]).V[(1 : Reg)] = true ∧
    (withRegs [(0, allOnes), (1, P - 1)]).F[(1 : Reg)].toNat < Config.modulus .stark := by decide +kernel
theorem witness_FinvWritesTheInverse : ready.V[(1 : Reg)] = true ∧ ready.F[(1 : Reg)].toNat < Config.modulus .stark ∧
    ready.F[(1 : Reg)].toNat ≠ 0 := by decide +kernel
theorem witness_FdivWritesTheQuotient : (withRegs [(0, 0), (1, m6)]).V[(0 : Reg)] = true ∧
    (withRegs [(0, 0), (1, m6)]).V[(1 : Reg)] = true ∧
    (withRegs [(0, 0), (1, m6)]).F[(0 : Reg)].toNat < Config.modulus .stark ∧
    (withRegs [(0, 0), (1, m6)]).F[(1 : Reg)].toNat < Config.modulus .stark ∧
    (withRegs [(0, 0), (1, m6)]).F[(1 : Reg)].toNat ≠ 0 := by decide +kernel
theorem witness_ParcAddsRoundConstants : TripleReady ready 0 ∧ (90#8).toNat < Config.nRounds := ⟨ready_triple, by decide⟩
theorem witness_PsboxCubesTheDesignatedElements : TripleReady ready 0 ∧
    ∀ r ∈ [3#8, 4#8, 86#8, 87#8], r.toNat < Config.nRounds := ⟨ready_triple, by decide⟩
theorem witness_PmdsMultipliesByTheMatrix : TripleReady ready 0 := ready_triple
theorem witness_PrndRunsOneRound : TripleReady ready 0 ∧ (0#8).toNat < Config.nRounds := ⟨ready_triple, by decide⟩
theorem witness_PpermRunsThePermutation : TripleReady ready 0 := ready_triple

theorem witness_UnwrittenOperandIsUninit : (Instr.fdiv .stark 2 5 1).wf = true ∧ ¬ ReadsValid (.fdiv .stark 2 5 1) ready := by
  refine ⟨rfl, fun h => ?_⟩
  have := h 5 (by decide)
  revert this; decide
theorem witness_NonCanonicalFeltIsRange : (Instr.fmul .stark 2 0 1).wf = true ∧
    ReadsValid (.fmul .stark 2 0 1) (withRegs [(0, P), (1, 0)]) ∧
    ¬ FeltsInRange (.fmul .stark 2 0 1) (withRegs [(0, P), (1, 0)]) := by
  refine ⟨rfl, ?_, fun h => ?_⟩
  · unfold ReadsValid; decide
  · have := h .stark rfl 0 (by decide)
    revert this; decide +kernel
theorem witness_DivisionByZeroIsReported : ReadsValid (.fdiv .stark 2 0 1) (withRegs [(0, 0), (1, 0)]) ∧
    FeltsInRange (.fdiv .stark 2 0 1) (withRegs [(0, 0), (1, 0)]) ∧
    DividesByZero (.fdiv .stark 2 0 1) (withRegs [(0, 0), (1, 0)]) := by
  refine ⟨?_, ?_, 1, rfl, by decide⟩
  · unfold ReadsValid; decide
  · rintro f ⟨⟩; decide +kernel
theorem witness_CheckedCommandCompletesOk : (Instr.fdiv .stark 2 0 1).wf = true ∧ ReadsValid (.fdiv .stark 2 0 1) ready ∧
    FeltsInRange (.fdiv .stark 2 0 1) ready ∧ ¬ DividesByZero (.fdiv .stark 2 0 1) ready := by
  refine ⟨rfl, ?_, ?_, ?_⟩
  · unfold ReadsValid; decide
  · rintro f ⟨⟩; decide +kernel
  · rintro ⟨j, ⟨⟩, h⟩; revert h; decide +kernel
theorem witness_ArithmeticResultsAreCanonical : instrField (.fadd .stark 2 0 1) = some .stark ∧
    (∀ rd k, Instr.fadd .stark 2 0 1 ≠ .fconst .stark rd k) ∧
    ∃ t, exec (.fadd .stark 2 0 1) ready = .next t ∧ t.rspStatus = 0 :=
  ⟨rfl, by simp, _, rfl, by decide +kernel⟩
theorem witness_DataWordIsReadOnlyByFld : (∀ rd ord, Instr.fconst .gen 7 .modulus ≠ .fld rd ord) ∧
    legal (inFlight 0x00000002).curW = false := ⟨by simp, by decide⟩
theorem witness_RepeatingACommandChangesNothing :
    (∀ j ∈ instrWrites (.fadd .stark 2 0 1), j ∉ instrReads (.fadd .stark 2 0 1)) ∧
    ∃ t, exec (.fadd .stark 2 0 1) ready = .next t := ⟨by decide, _, rfl⟩
theorem witness_OnlyResetClearsAValidBit : ∃ t, step { ready with edges := [{ Edge.quiet with rst := true }] } = .next t ∧
    ready.V[(0 : Reg)] = true ∧ t.V[(0 : Reg)] = false := ⟨_, rfl, by decide, by decide +kernel⟩
theorem witness_UnwrittenRegistersAreInvisible : SameVisible ready { ready with F := ready.F.set 7 5 } ∧
    ready.F ≠ ({ ready with F := ready.F.set 7 5 } : State).F :=
  ⟨⟨rfl, by decide +kernel, rfl, fun _ => ⟨rfl, rfl⟩, rfl, rfl, rfl, rfl, rfl⟩, by decide +kernel⟩
theorem witness_EveryStepKeepsTheInvariant : StateInv (inFlight 0x2D020000) ∧ ∃ t, step (inFlight 0x2D020000) = .next t :=
  ⟨⟨fun _ => rfl, by decide, fun h => absurd rfl h⟩, _, rfl⟩
theorem witness_EveryAcceptedCommandGetsOneResponse :
    StateInv { State.reset with edges := commandEdges (.fld 0 .le, 6) } ∧
    (∀ e ∈ commandEdges (.fld 0 .le, 6), e.rst = false) ∧
    ∃ t, core.run 3 { State.reset with edges := commandEdges (.fld 0 .le, 6) } = .next t ∧
      acceptedIn 3 { State.reset with edges := commandEdges (.fld 0 .le, 6) } = 1 ∧ t.pending = 0 :=
  ⟨⟨fun h => absurd h (by decide), by decide, fun h => absurd rfl h⟩, by decide, _, rfl, by decide, by decide⟩
theorem witness_CommandInFlightEnds : (inFlight 0x7E800000).busy = true := rfl
theorem witness_ResponseComesAtItsLatency : State.reset.busy = false ∧ State.reset.rspValid = false ∧
    (presents 0x7E800000).rst = false ∧ (presents 0x7E800000).cmdValid = true ∧
    ([] : List Pins).length < wordLatency (presents 0x7E800000).cmdWord ∧
    (∀ q ∈ List.replicate (wordLatency 0x7E800000) idlePins, q.rst = false) ∧
    (List.replicate (wordLatency 0x7E800000) idlePins).length = wordLatency (presents 0x7E800000).cmdWord := by
  refine ⟨rfl, rfl, rfl, rfl, ?_, ?_, by rw [List.length_replicate]; rfl⟩
  · rw [presents, wordLatency, if_pos (by decide)]; exact Nat.succ_pos _
  · intro q hq; rw [List.eq_of_mem_replicate hq]; rfl
theorem witness_CommandRunsThroughThePorts : (Instr.pperm 5).wf = true ∧ State.reset.busy = false ∧
    State.reset.rspValid = false := by decide

theorem witness_AdderAndSubtractorAreExact : (BitVec.ofNat 256 (P - 1)).toNat < Config.modulus .stark ∧
    (BitVec.ofNat 256 0).toNat < Config.modulus .stark := by decide +kernel
theorem witness_RedcReducesEveryLegalValue : P * 2 ^ 256 - 1 < Config.modulus .stark * Config.radix := by decide +kernel
theorem witness_ReducerSharesAllConversions : P - 1 < Config.modulus .stark ∧ 0 < Config.modulus .stark ∧
    (BitVec.ofNat 256 (P - 1)).toNat < Config.modulus .stark := by decide +kernel
theorem witness_WordSerialMultiplierIsExact : P - 1 < Config.modulus .stark ∧ 0 < Config.modulus .stark ∧ 3 < 4 := by
  decide +kernel
theorem witness_InvertersAgree : 0 < Config.modulus .stark ∧ 0 < P - 1 ∧ P - 1 < Config.modulus .stark := by decide +kernel
theorem witness_MixNeedsNoMultiplier : ∀ i, tripleGet ⟨P - 1, 0, m2⟩ i < Config.pStark := by decide +kernel
theorem witness_AdditionLaws : P - 1 < Config.modulus .stark ∧ 0 < Config.modulus .stark ∧ 1 < Config.modulus .stark := by
  decide +kernel
theorem witness_MultiplicationLaws : P - 1 < Config.modulus .stark ∧ m2 < Config.modulus .stark ∧ m3 < Config.modulus .stark := by
  decide +kernel
theorem witness_DivisionLaws : 0 < Config.modulus .stark ∧ 0 < m2 ∧ m2 < Config.modulus .stark ∧ 0 < P - 1 ∧
    P - 1 < Config.modulus .stark := by decide +kernel
theorem witness_PseudoInstructionsDoAsNamed : ready.V[(1 : Reg)] = true ∧ ready.F[(1 : Reg)].toNat < Config.modulus .stark ∧
    (0 : Reg) ≠ 1 ∧ TripleReady ready 0 :=
  ⟨by decide +kernel, by decide +kernel, by decide +kernel, ready_triple⟩
theorem witness_RoundIsItsThreeLayers : ∃ u, runOk [.parc 0 90, .psbox 0 90, .pmds 0] ready = some u := by
  have h0 := ready_triple
  obtain ⟨t1, e1, s1, h1⟩ := Laws.ready_after h0 (Laws.arcLayer_lt _ _ _) (Laws.exec_parc_ok (r := 90) h0 (by decide))
  obtain ⟨t2, e2, s2, h2⟩ := Laws.ready_after h1 (fun k => Laws.sboxLayer_lt _ _ k (Laws.triple_felt h1.felt k))
    (Laws.exec_psbox_ok (r := 90) h1 (by decide))
  obtain ⟨t3, e3, s3, -⟩ := Laws.ready_after h2 (Laws.mixLayer_lt _ _) (Laws.exec_pmds_ok h2)
  exact ⟨t3, by rw [Laws.runOk_cons e1 s1, Laws.runOk_cons e2 s2, Laws.runOk_cons e3 s3, runOk]⟩
theorem runOk_rounds (rs : List Nat) (h : ∀ r ∈ rs, r < 91) : ∀ s, TripleReady s 0 →
    ∃ u, runOk (rs.map fun r => .prnd 0 (BitVec.ofNat 8 r)) s = some u := by
  induction rs with
  | nil => exact fun s _ => ⟨s, rfl⟩
  | cons r rs ih =>
    intro s hs
    have hr := h r (by simp)
    have hr' : (BitVec.ofNat 8 r).toNat < Config.nRounds := by
      rw [BitVec.toNat_ofNat, Nat.mod_eq_of_lt (by omega)]; exact hr
    obtain ⟨t, e, h0, ht⟩ := Laws.ready_after hs (Laws.mixLayer_lt _ _) (Laws.exec_prnd_ok hs hr')
    obtain ⟨u, hu⟩ := ih (fun r hr => h r (by simp [hr])) t ht
    exact ⟨u, by rw [List.map_cons, Laws.runOk_cons e h0, hu]⟩
theorem witness_PermutationIsItsRounds :
    ∃ u, runOk ((List.range 91).map fun r => .prnd 0 (BitVec.ofNat 8 r)) ready = some u :=
  runOk_rounds _ (fun _ h => List.mem_range.1 h) ready ready_triple

end Sys2Proof.Tests
end

namespace Sys2Proof.Proofs

open Sys2Proof.Machine Sys2Proof.Laws

/-! ## The frame of a command (00_scope R12, 10_state R17, R22; 60_exceptions R127) -/

/-- A completed command `i` kept to its row of 10_state R17: on OK it changed its destinations only and made them valid, on
an error it changed no register and answered with data 0, and only FST answers with other data. -/
def KeepsToItsRow (i : Instr) (s t : State) : Prop :=
  Ended s t t.rspStatus t.rspData ∧
    (t.rspStatus = 0 → KeepsRegs s t (instrWrites i) ∧ ∀ j ∈ instrWrites i, t.V[j] = true) ∧
    (t.rspStatus ≠ 0 → KeepsRegs s t [] ∧ t.rspData = 0) ∧
    (t.rspData ≠ 0 → ∃ rs1 ord, i = .fst rs1 ord)

theorem ended_ownResponse {s t : State} {c : BitVec 4} {d : Word} (h : Ended s t c d) :
    Ended s t t.rspStatus t.rspData := by
  rw [h.rspStatus, h.rspData]; exact h

theorem keepsToItsRow_of_failed {i : Instr} {s t : State} {c : BitVec 4} (hc : c ≠ 0) (h : Failed s t c) :
    KeepsToItsRow i s t :=
  ⟨ended_ownResponse h.ended, fun h0 => absurd (h.ended.rspStatus.symm.trans h0) hc,
    fun _ => ⟨h.frame, h.ended.rspData⟩, fun hd => absurd h.ended.rspData hd⟩

theorem keepsToItsRow_of_ok {i : Instr} {s t : State} {d : Word} (h : Ended s t 0 d)
    (hframe : KeepsRegs s t (instrWrites i)) (hvalid : ∀ j ∈ instrWrites i, t.V[j] = true)
    (hdata : d ≠ 0 → ∃ rs1 ord, i = .fst rs1 ord) : KeepsToItsRow i s t :=
  ⟨ended_ownResponse h, fun _ => ⟨hframe, hvalid⟩, fun h0 => absurd h.rspStatus h0,
    fun hd => hdata (h.rspData ▸ hd)⟩

/-- Each of the ways a command can end keeps to the command's row: the four errors write nothing, and the three completions
write exactly the destinations, FST none. -/
theorem keepsToItsRow_of_ends {i : Instr} {s t : State} (h : Ends i s t) : KeepsToItsRow i s t := by
  cases h with
  | illegal _ h => exact keepsToItsRow_of_failed (by decide) h
  | uninit _ _ h => exact keepsToItsRow_of_failed (by decide) h
  | range _ _ _ h => exact keepsToItsRow_of_failed (by decide) h
  | div0 _ _ _ _ h => exact keepsToItsRow_of_failed (by decide) h
  | wrote _ _ _ _ rd y hd h =>
    exact keepsToItsRow_of_ok h.ended (hd ▸ h.frame) (by simpa [hd] using h.valid) (absurd rfl)
  | wroteTriple _ _ _ _ base y hd h =>
    exact keepsToItsRow_of_ok h.ended (hd ▸ h.frame) (hd ▸ h.valid) (absurd rfl)
  | answered _ _ _ _ rs1 ord hi d h =>
    subst hi
    exact keepsToItsRow_of_ok h.ended h.frame (by simp [instrWrites]) (fun _ => ⟨rs1, ord, rfl⟩)

/-- Settles O33, by the ways a command can end. -/
theorem commandsChangeOnlyTheirDestinations : Obligations.CommandsChangeOnlyTheirDestinations := by
  intro i s
  obtain ⟨t, ht, hends⟩ := exec_ends i s
  exact ⟨t, ht, keepsToItsRow_of_ends hends⟩

end Sys2Proof.Proofs

namespace Sys2Proof.Proofs

open Sys2Proof.Machine Sys2Proof.Laws

/-! ## Commands that fail a check of their operands (60_exceptions R126, R128) -/

/-- A command that reads an unwritten register fails before anything but its word is checked. -/
theorem exec_failed_of_not_readsValid {i : Instr} {s : State} (hv : ¬ ReadsValid i s) :
    ∃ t, exec i s = .next t ∧ Failed s t (if i.wf then 4 else 3) := by
  obtain ⟨t, ht, hends⟩ := exec_ends i s
  refine ⟨t, ht, ?_⟩
  cases hends with
  | illegal hw h => simpa [hw] using h
  | uninit hw _ h => simpa [hw] using h
  | range _ hv' | div0 _ hv' | wrote _ hv' | wroteTriple _ hv' | answered _ hv' => exact absurd hv' hv

/-- Settles O29: unwritten operands are found before any range or zero check. -/
theorem unwrittenOperandIsUninit : Obligations.UnwrittenOperandIsUninit := by
  intro i s hw hv
  simpa [hw] using exec_failed_of_not_readsValid hv

/-- Settles O30, by the ways a command can end: with its word legal and its operands written, one that is out of range leaves
only E_RANGE. -/
theorem nonCanonicalFeltIsRange : Obligations.NonCanonicalFeltIsRange := by
  intro i s hw hv hr
  obtain ⟨t, ht, hends⟩ := exec_ends i s
  refine ⟨t, ht, ?_⟩
  cases hends with
  | illegal hw' => exact absurd (hw.symm.trans hw') (by decide)
  | uninit _ hv' => exact absurd hv hv'
  | range _ _ _ h => exact h
  | div0 _ _ hr' | wrote _ _ hr' | wroteTriple _ _ hr' | answered _ _ hr' => exact absurd hr' hr

/-! ## What a completed command wrote (10_state R19) -/

theorem not_ok_of_failed {s t : State} {c : BitVec 4} (hc : c ≠ 0) (h : Failed s t c) : t.rspStatus ≠ 0 :=
  h.ended.rspStatus ▸ hc

/-- Settles O34, by the ways a command can complete: a single result is below the modulus of the command's field, and a triple's
elements are below that of the STARK field. -/
theorem arithmeticResultsAreCanonical : Obligations.ArithmeticResultsAreCanonical := by
  intro i f s t hf hconst hexec hok
  obtain ⟨t', ht', hends⟩ := exec_ends i s
  obtain rfl : t = t' := Host.Outcome.next.inj (hexec.symm.trans ht')
  cases hends with
  | illegal _ h | uninit _ _ h | range _ _ _ h | div0 _ _ _ _ h => exact absurd hok (not_ok_of_failed (by decide) h)
  | wrote _ _ _ _ rd y hd h hy =>
    rw [hd, List.forall_mem_singleton, h.value]
    exact hy f hf hconst
  | wroteTriple _ _ _ _ base y hd h hstark hy =>
    obtain rfl : f = .stark := by simpa [hf] using hstark
    simp only [hd, tripleRegs, List.mem_cons, List.not_mem_nil, or_false, forall_eq_or_imp, forall_eq, h.value0, h.value1,
      h.value2]
    exact ⟨hy 0, hy 1, hy 2⟩
  | answered _ _ _ _ rs1 ord hi => simp [hi, instrWrites]

/-! ## Valid bits over a step (10_state R22) -/

/-- Settles O38, by the kinds of edge: the ports leave V alone, and a completed command clears no valid bit. -/
theorem onlyResetClearsAValidBit : Obligations.OnlyResetClearsAValidBit := by
  intro s t j hstep hset hclear
  obtain ⟨t', ht', hcases⟩ := edgeStep_cases s.nextEdge s.dropEdge
  obtain rfl : t = t' := Host.Outcome.next.inj (hstep.symm.trans ht')
  have hport : (s.dropEdge.portEdge s.nextEdge).V[j] = true := by rwa [portEdge_V]
  rcases hcases with ⟨hrst, -⟩ | ⟨-, -, -, -, hdone⟩ | ⟨-, -, rfl⟩
  · exact hrst
  · exact absurd (hdone.valid j hport) (by simp [hclear])
  · exact absurd hport (by simp [hclear])

/-! ## The state after reset (10_state R35) -/

theorem not_readsValid_reset {i : Instr} (h : instrReads i ≠ []) : ¬ ReadsValid i State.reset := by
  obtain ⟨j, hj⟩ := List.exists_mem_of_ne_nil _ h
  exact fun hv => absurd ((reset_V j).symm.trans (hv j hj)) Bool.false_ne_true

/-- Settles O7: every register is unwritten after reset, so a command that reads one ends with E_UNINIT. -/
theorem resetStateIsIdle : Obligations.ResetStateIsIdle := by
  refine ⟨reset_V, rfl, rfl, rfl, rfl, rfl, fun es => ?_, fun i hw hne => ?_⟩
  · simp [State.atRest, State.reset]
  · exact unwrittenOperandIsUninit i State.reset hw (not_readsValid_reset hne)

/-- Settles O40: the block is idle after reset, and its status is OK. -/
theorem resetMeetsTheInvariant : Obligations.ResetMeetsTheInvariant :=
  ⟨fun h => absurd h Bool.false_ne_true, Nat.zero_le 4, fun h => absurd rfl h⟩

/-! ## The response registers are no operand (10_state R28) -/

/-- Settles O36, by the three ends a meaning can have: none reads the response that stands before it. -/
theorem noCommandReadsAnEarlierResponse : Obligations.NoCommandReadsAnEarlierResponse := by
  intro i s v st d
  cases i with
  | fst => exact congrArg Host.Outcome.next (finishData_response s v st d _ _)
  | parc | psbox | pmds | prnd | pperm => exact congrArg Host.Outcome.next (finishTriple_response s v st d _ _ _)
  | fld | fconst | tomont | frommont | fadd | fsub | fmul | fredc | finv | fdiv =>
    exact congrArg Host.Outcome.next (finish_response s v st d _ _ _)

/-! ## Unwritten registers are invisible (10_state R21, R23; 93 U1, U3) -/

theorem failed_keepsRegs {s t : State} {c : BitVec 4} (h : Failed s t c) : t.V = s.V ∧ t.F = s.F :=
  ⟨Vector.ext fun k hk => (h.frame ⟨k, hk⟩ List.not_mem_nil).2, Vector.ext fun k hk => (h.frame ⟨k, hk⟩ List.not_mem_nil).1⟩

theorem sameVisible_of_failed {s t s' t' : State} {c : BitVec 4} (h : SameVisible s t) (hs : Failed s s' c)
    (ht : Failed t t' c) : SameVisible s' t' := by
  obtain ⟨hsV, hsF⟩ := failed_keepsRegs hs
  obtain ⟨htV, htF⟩ := failed_keepsRegs ht
  have hsEnd := hs.ended
  have htEnd := ht.ended
  exact
    { V := by rw [htV, hsV, h.V]
      F := by rw [hsV, htF, hsF]; exact h.F
      busy := htEnd.busy.trans hsEnd.busy.symm
      cur := fun hb => absurd hb (by simp [hsEnd.busy])
      rspValid := htEnd.rspValid.trans hsEnd.rspValid.symm
      rspStatus := htEnd.rspStatus.trans hsEnd.rspStatus.symm
      rspData := htEnd.rspData.trans hsEnd.rspData.symm
      edges := by rw [htEnd.edges, hsEnd.edges, h.edges]
      freeCtr := by rw [htEnd.freeCtr, hsEnd.freeCtr, h.freeCtr] }

theorem readsValid_iff_of_sameVisible {s t : State} (h : SameVisible s t) (i : Instr) :
    ReadsValid i t ↔ ReadsValid i s := by
  rw [ReadsValid, ReadsValid, h.V]

/-- A command whose operands are written ends alike in both states: its checks and its result are made of the operands and, for
FLD, of the data word. -/
theorem exec_visible_of_readsValid {i : Instr} {s t : State} (h : SameVisible s t) (hd : t.curD = s.curD)
    (hv : ReadsValid i s) : ∃ s' t', exec i s = .next s' ∧ exec i t = .next t' ∧ SameVisible s' t' := by
  have hF : ∀ j ∈ instrReads i, t.F[j] = s.F[j] := fun j hj => h.F j (hv j hj)
  have hV := h.V
  cases i with
  | fld rd ord =>
    refine ⟨_, _, rfl, rfl, ?_⟩
    rw [hd]
    exact finish_visible h _ _ _
  | fst a =>
    refine ⟨_, _, rfl, rfl, ?_⟩
    have ha := hF a (List.mem_singleton_self a)
    simp only [valid_eq, reg_eq, hV, ha]
    exact finishData_visible h _ _
  | fconst => exact ⟨_, _, rfl, rfl, finish_visible h _ _ _⟩
  | tomont _ _ a | frommont _ _ a | finv _ _ a =>
    refine ⟨_, _, rfl, rfl, ?_⟩
    have ha := hF a (List.mem_singleton_self a)
    simp only [valid_eq, operand_eq, hV, ha]
    exact finish_visible h _ _ _
  | fadd _ _ a b | fsub _ _ a b | fmul _ _ a b | fredc _ _ a b | fdiv _ _ a b =>
    refine ⟨_, _, rfl, rfl, ?_⟩
    have ha := hF a (by simp [instrReads])
    have hb := hF b (by simp [instrReads])
    simp only [valid_eq, operand_eq, hV, ha, hb]
    exact finish_visible h _ _ _
  | parc base | psbox base | pmds base | prnd base | pperm base =>
    refine ⟨_, _, rfl, rfl, ?_⟩
    have h0 := hF base (by simp [instrReads, tripleRegs])
    have h1 := hF (base + 1) (by simp [instrReads, tripleRegs])
    have h2 := hF (base + 2) (by simp [instrReads, tripleRegs])
    simp only [State.checkTriple, State.triple, valid_eq, operand_eq, hV, h0, h1, h2]
    exact finishTriple_visible h _ _ _

theorem exec_visible {s t : State} (h : SameVisible s t) (hd : t.curD = s.curD) (i : Instr) :
    ∃ s' t', exec i s = .next s' ∧ exec i t = .next t' ∧ SameVisible s' t' := by
  by_cases hv : ReadsValid i s
  · exact exec_visible_of_readsValid h hd hv
  · obtain ⟨s', hs', hsf⟩ := exec_failed_of_not_readsValid hv
    obtain ⟨t', ht', htf⟩ := exec_failed_of_not_readsValid (mt (readsValid_iff_of_sameVisible h i).1 hv)
    exact ⟨s', t', hs', ht', sameVisible_of_failed h hsf htf⟩

theorem runCurrent_visible {s t : State} (h : SameVisible s t) (hb : s.busy = true) :
    ∃ s' t', runCurrent s = .next s' ∧ runCurrent t = .next t' ∧ SameVisible s' t' := by
  obtain ⟨hw, hd⟩ := h.cur hb
  rw [runCurrent, runCurrent, hw]
  cases decode s.curW with
  | ok i => exact exec_visible h hd i
  | error e => exact ⟨_, _, rfl, rfl, respond_visible h .illegal 0⟩

theorem takeRsp_visible {s t : State} (h : SameVisible s t) : SameVisible s.takeRsp t.takeRsp :=
  ⟨h.V, h.F, h.busy, h.cur, rfl, h.rspStatus, h.rspData, h.edges, h.freeCtr⟩

theorem accept_visible {s t : State} (h : SameVisible s t) (w : CmdWord) (d : Word) :
    SameVisible (s.accept w d) (t.accept w d) :=
  ⟨h.V, h.F, rfl, fun _ => ⟨rfl, rfl⟩, h.rspValid, h.rspStatus, h.rspData, h.edges, h.freeCtr⟩

theorem dropEdge_visible {s t : State} (h : SameVisible s t) : SameVisible s.dropEdge t.dropEdge :=
  ⟨h.V, h.F, h.busy, h.cur, h.rspValid, h.rspStatus, h.rspData, congrArg List.tail h.edges, h.freeCtr⟩

/-- A reset draws its free values by the counter alone. -/
theorem resetEdge_visible {s t : State} (h : SameVisible s t) : SameVisible s.resetEdge t.resetEdge := by
  rw [show t.resetEdge = s.resetEdge by rw [State.resetEdge, State.resetEdge, h.edges, h.freeCtr]]
  exact ⟨rfl, fun _ _ => rfl, rfl, fun _ => ⟨rfl, rfl⟩, rfl, rfl, rfl, rfl, rfl⟩

theorem ite_visible {c : Prop} [Decidable c] {s t u v : State} (hthen : SameVisible s t) (helse : SameVisible u v) :
    SameVisible (if c then s else u) (if c then t else v) := by
  by_cases hc : c
  · rwa [if_pos hc, if_pos hc]
  · rwa [if_neg hc, if_neg hc]

theorem portEdge_visible {s t : State} (h : SameVisible s t) (e : Edge) :
    SameVisible (s.portEdge e) (t.portEdge e) := by
  have htaken : SameVisible (if s.rspValid && e.rspReady then s.takeRsp else s)
      (if s.rspValid && e.rspReady then t.takeRsp else t) := ite_visible (takeRsp_visible h) h
  simp only [State.portEdge, State.cmdReady, h.busy, h.rspValid]
  exact ite_visible (accept_visible htaken _ _) htaken

theorem portEdge_busy {s : State} (hb : s.busy = true) (e : Edge) : (s.portEdge e).busy = true := by
  have hready : s.cmdReady e.rst = false := by simp [State.cmdReady, hb]
  simp only [State.portEdge, hready, Bool.and_false, Bool.false_eq_true, if_false]
  split <;> exact hb

theorem edgeStep_visible {s t : State} (h : SameVisible s t) (e : Edge) :
    ∃ s' t', edgeStep e s = .next s' ∧ edgeStep e t = .next t' ∧ SameVisible s' t' := by
  rw [edgeStep, edgeStep, h.busy]
  by_cases hr : e.rst = true
  · simp only [if_pos hr]
    exact ⟨_, _, rfl, rfl, resetEdge_visible h⟩
  simp only [if_neg hr]
  by_cases hc : (s.busy && e.done) = true
  · simp only [if_pos hc]
    exact runCurrent_visible (portEdge_visible h e) (portEdge_busy (Bool.and_eq_true_iff.1 hc).1 e)
  · simp only [if_neg hc]
    exact ⟨_, _, rfl, rfl, portEdge_visible h e⟩

/-- Settles O39: the edges are the same, and each kind of edge keeps the two states alike. -/
theorem unwrittenRegistersAreInvisible : Obligations.UnwrittenRegistersAreInvisible := by
  intro s t h
  have hedge : t.nextEdge = s.nextEdge := congrArg (List.headD · Edge.quiet) h.edges
  rw [step, step, hedge]
  exact edgeStep_visible (dropEdge_visible h) s.nextEdge

end Sys2Proof.Proofs

namespace Sys2Proof.Proofs

open Sys2Proof.Machine Sys2Proof.Laws

/-! ## What a step and its edge do (20_memory R40 to R43) -/

theorem step_answers (s : State) : ∃ t, step s = .next t := by
  obtain ⟨t, ht, -⟩ := edgeStep_cases s.nextEdge s.dropEdge
  exact ⟨t, ht⟩

/-- What a step that answers with `t` did: a reset, a completion, or the ports alone. -/
theorem step_cases {s t : State} (h : step s = .next t) :
    (s.nextEdge.rst = true ∧ t = s.dropEdge.resetEdge) ∨
      (s.nextEdge.rst = false ∧ s.busy = true ∧ Completed (s.dropEdge.portEdge s.nextEdge) t) ∨
      (s.nextEdge.rst = false ∧ ¬ (s.busy = true ∧ s.nextEdge.done = true) ∧ t = s.dropEdge.portEdge s.nextEdge) := by
  obtain ⟨t', ht', hcases⟩ := edgeStep_cases s.nextEdge s.dropEdge
  obtain rfl : t = t' := Host.Outcome.next.inj (h.symm.trans ht')
  exact hcases.imp_right (Or.imp_left fun ⟨hrst, hb, _, _, hdone⟩ => ⟨hrst, hb, hdone⟩)

/-- An idle block takes the command it is presented, and nothing else happens at its ports. -/
theorem portEdge_idle {s : State} {e : Edge} (hb : s.busy = false) (hr : s.rspValid = false) (hrst : e.rst = false) :
    s.portEdge e = if e.cmdValid then s.accept e.cmdWord e.cmdData else s := by
  simp [State.portEdge, State.cmdReady, hb, hr, hrst]

/-- A waiting response keeps the command port closed. -/
theorem portEdge_waiting {s : State} {e : Edge} (hr : s.rspValid = true) :
    s.portEdge e = if e.rspReady then s.takeRsp else s := by
  simp [State.portEdge, State.cmdReady, hr]

theorem edgeStep_ports {s : State} {e : Edge} (hrst : e.rst = false) (h : ¬ (s.busy = true ∧ e.done = true)) :
    edgeStep e s = .next (s.portEdge e) := by
  rw [edgeStep, if_neg (by simp [hrst]), if_neg (by simpa using h)]

theorem edgeStep_idle {s : State} {e : Edge} (hb : s.busy = false) (hrst : e.rst = false) :
    edgeStep e s = .next (s.portEdge e) :=
  edgeStep_ports hrst (fun h => absurd (hb.symm.trans h.1) Bool.false_ne_true)

theorem edgeStep_inFlight {s : State} {e : Edge} (hb : s.busy = true) (hr : s.rspValid = false) (hrst : e.rst = false)
    (hd : e.done = false) : edgeStep e s = .next s := by
  rw [edgeStep_ports hrst (fun h => absurd (hd.symm.trans h.2) Bool.false_ne_true), portEdge_inFlight hb hr]

theorem edgeStep_completes {s : State} {e : Edge} (hb : s.busy = true) (hr : s.rspValid = false) (hrst : e.rst = false)
    (hd : e.done = true) : edgeStep e s = runCurrent s := by
  rw [edgeStep, if_neg (by simp [hrst]), if_pos (by simp [hb, hd]), portEdge_inFlight hb hr]

theorem runCurrent_ok {s : State} {i : Instr} (h : decode s.curW = .ok i) : runCurrent s = exec i s := by
  rw [runCurrent, h]

/-- Settles O8, clause by clause: an idle block, a waiting response, a command in flight. -/
theorem portsFollowTheHandshake : Obligations.PortsFollowTheHandshake := by
  intro s e hrst
  refine ⟨fun hb hr => ?_, fun hb hr => ?_, fun hb hr hd => edgeStep_inFlight hb hr hrst hd⟩
  · rw [edgeStep_idle hb hrst, portEdge_idle hb hr hrst]
    rfl
  · rw [edgeStep_idle hb hrst, portEdge_waiting hr]
    rfl

/-- Settles O10: the ports are closed while the command completes, so the step is the end of the decoded command. -/
theorem stepRunsDecodedCommand : Obligations.StepRunsDecodedCommand := by
  intro s i hb hr hrst hdone hdec
  rw [step_runs hb hr hrst hdone]
  exact runCurrent_ok hdec

theorem nextEdge_quiet {s : State} (h : s.edges = []) : s.nextEdge = Edge.quiet := by
  rw [State.nextEdge, h, List.headD_nil]

theorem decode_of_decodeTableWord {nbits w : Nat} {i : Instr} (h : decodeTableWord nbits w = some i) :
    decode (BitVec.ofNat 32 (w % 2 ^ nbits)) = .ok i := by
  rw [decodeTableWord] at h
  cases hd : decode (BitVec.ofNat 32 (w % 2 ^ nbits)) with
  | ok j => simpa [hd, Except.toOption] using h
  | error e => simp [hd, Except.toOption] at h

/-- Settles O13: the hook latches the word, and with no edge in store the next one is quiet, so the step completes it. -/
theorem fetchedWordRunsNext : Obligations.FetchedWordRunsNext := by
  intro s w i hes hw
  have hedges : (s.withFetchWord 32 w).edges = [] := congrArg quietFirst hes
  have hquiet : (s.withFetchWord 32 w).nextEdge = Edge.quiet := nextEdge_quiet hedges
  have hdrop : (s.withFetchWord 32 w).dropEdge = s.withFetchWord 32 w := by
    rw [State.dropEdge, hedges, List.tail_nil, ← hedges]
  rw [step_runs rfl rfl (by rw [hquiet]; rfl) (by rw [hquiet]; rfl), hdrop]
  exact runCurrent_ok (decode_of_decodeTableWord hw)

/-! ## The invariant (20_memory R42, R43; 60_exceptions R125, R127) -/

theorem stateInv_resetEdge (s : State) : StateInv s.resetEdge :=
  ⟨fun hb => absurd hb Bool.false_ne_true, Nat.zero_le 4, fun h => absurd rfl h⟩

theorem stateInv_of_completed {s t : State} (h : Completed s t) : StateInv t :=
  ⟨fun hb => absurd (h.busy.symm.trans hb) Bool.false_ne_true, h.status, h.errorData⟩

/-- The ports keep the invariant: a command is accepted only when no response waits. -/
theorem portEdge_stateInv {s : State} (h : StateInv s) (e : Edge) : StateInv (s.portEdge e) := by
  refine ⟨fun hb => ?_, by rw [portEdge_rspStatus]; exact h.status,
    by rw [portEdge_rspStatus, portEdge_rspData]; exact h.errorData⟩
  cases hr : s.rspValid with
  | false =>
    simp only [State.portEdge, hr, Bool.false_and, Bool.false_eq_true, if_false]
    split <;> exact hr
  | true =>
    have hidle : s.busy = false := Bool.eq_false_iff.2 fun hb' => by simp [h.slot hb'] at hr
    rw [portEdge_waiting hr] at hb ⊢
    split at hb
    all_goals exact absurd (hidle.symm.trans hb) Bool.false_ne_true

/-- Settles O41, by the kinds of edge: a reset, a completion, and the ports alone each leave a state with the invariant. -/
theorem everyStepKeepsTheInvariant : Obligations.EveryStepKeepsTheInvariant := by
  intro s t hinv hstep
  rcases step_cases hstep with ⟨-, rfl⟩ | ⟨-, -, hdone⟩ | ⟨-, -, rfl⟩
  · exact stateInv_resetEdge _
  · exact stateInv_of_completed hdone
  · exact portEdge_stateInv (s := s.dropEdge) ⟨hinv.slot, hinv.status, hinv.errorData⟩ _

/-! ## Commands and responses are conserved (20_memory R41, R42) -/

theorem run_succ {s t : State} (h : step s = .next t) (n : Nat) : core.run (n + 1) s = core.run n t := by
  have hcore : core.step s = .next t := h
  simp only [Host.Core.run, hcore]

theorem acceptedIn_succ {s t : State} (h : step s = .next t) (n : Nat) :
    acceptedIn (n + 1) s = (if s.acceptsNow then 1 else 0) + acceptedIn n t := by
  rw [acceptedIn, h]

theorem length_responsesIn_succ {s t : State} (h : step s = .next t) (n : Nat) :
    (responsesIn (n + 1) s).length = (if s.takesNow then 1 else 0) + (responsesIn n t).length := by
  rw [responsesIn, h, List.length_append]
  split <;> rfl

theorem step_edges {s t : State} (h : step s = .next t) : t.edges = s.edges.tail := by
  rcases step_cases h with ⟨-, rfl⟩ | ⟨-, -, hdone⟩ | ⟨-, -, rfl⟩
  · rfl
  · rw [hdone.edges, portEdge_edges]
    rfl
  · exact portEdge_edges _ _

theorem nextEdge_rst {s : State} (h : ∀ e ∈ s.edges, e.rst = false) : s.nextEdge.rst = false := by
  rw [State.nextEdge]
  cases hes : s.edges with
  | nil => rfl
  | cons e es => exact h e (by simp [hes])

/-- What the ports do at one edge balances: a command accepted is one more pending, a response taken one less. -/
theorem portEdge_pending (s : State) {e : Edge} (hrst : e.rst = false) :
    s.pending + (if e.cmdValid && s.cmdReady e.rst then 1 else 0) =
      (if s.rspValid && e.rspReady && !e.rst then 1 else 0) + (s.portEdge e).pending := by
  cases hr : s.rspValid with
  | true =>
    rw [portEdge_waiting hr]
    cases e.rspReady <;> simp [State.pending, State.cmdReady, hr, hrst, Nat.add_comm]
  | false =>
    cases hb : s.busy with
    | true => simp [portEdge_inFlight hb hr, State.cmdReady, hb]
    | false =>
      rw [portEdge_idle hb hr hrst]
      cases e.cmdValid <;> simp [State.pending, State.cmdReady, hb, hr, hrst]

/-- Completing trades the command in flight for its response. -/
theorem pending_of_completed {s t : State} (hb : s.busy = true) (hr : s.rspValid = false) (h : Completed s t) :
    t.pending = s.pending := by
  simp [State.pending, hb, hr, h.busy, h.rspValid]

theorem step_pending {s t : State} (hinv : StateInv s) (hrst : s.nextEdge.rst = false) (hstep : step s = .next t) :
    s.pending + (if s.acceptsNow then 1 else 0) = (if s.takesNow then 1 else 0) + t.pending := by
  have hports := portEdge_pending s.dropEdge hrst
  rcases step_cases hstep with ⟨hr, -⟩ | ⟨-, hb, hdone⟩ | ⟨-, -, rfl⟩
  · exact absurd (hrst.symm.trans hr) Bool.false_ne_true
  · rw [portEdge_inFlight (s := s.dropEdge) hb (hinv.slot hb)] at hdone hports
    rw [pending_of_completed (s := s.dropEdge) hb (hinv.slot hb) hdone]
    exact hports
  · exact hports

/-- Settles O42, by induction on the number of steps: every step keeps the balance and the invariant. -/
theorem everyAcceptedCommandGetsOneResponse : Obligations.EveryAcceptedCommandGetsOneResponse := by
  intro n
  induction n with
  | zero =>
    intro s t _ _ hrun
    obtain rfl : s = t := Host.Outcome.next.inj hrun
    exact Nat.add_comm _ _
  | succ n ih =>
    intro s t hinv hes hrun
    obtain ⟨u, hstep⟩ := step_answers s
    rw [run_succ hstep] at hrun
    have hes' : ∀ e ∈ u.edges, e.rst = false := fun e he => hes e (List.mem_of_mem_tail (step_edges hstep ▸ he))
    have hone := step_pending hinv (nextEdge_rst hes) hstep
    have hrest := ih u t (everyStepKeepsTheInvariant s u hinv hstep) hes' hrun
    rw [acceptedIn_succ hstep, length_responsesIn_succ hstep]
    omega

/-! ## A command in flight ends (20_memory R43, 70_reset R158) -/

/-- From a busy block, a step past the listed edges completes the command. -/
theorem step_quiet {s : State} (hes : s.edges = []) (hb : s.busy = true) : ∃ t, step s = .next t ∧ t.busy = false := by
  obtain ⟨t, hstep⟩ := step_answers s
  have hquiet := nextEdge_quiet hes
  refine ⟨t, hstep, ?_⟩
  rcases step_cases hstep with ⟨hr, -⟩ | ⟨-, -, hdone⟩ | ⟨-, hnot, -⟩
  · exact absurd hr (by rw [hquiet]; decide)
  · exact hdone.busy
  · exact absurd ⟨hb, by rw [hquiet]; rfl⟩ hnot

/-- Settles O43, by induction on the listed edges: each step uses one, and past the last the command completes. -/
theorem commandInFlightEnds : Obligations.CommandInFlightEnds := by
  intro s
  induction hes : s.edges generalizing s with
  | nil =>
    cases hb : s.busy with
    | false => exact ⟨0, s, Nat.zero_le _, rfl, hb⟩
    | true =>
      obtain ⟨t, ht, hbt⟩ := step_quiet hes hb
      exact ⟨1, t, Nat.le_refl 1, run_succ ht 0, hbt⟩
  | cons e es ih =>
    obtain ⟨t, hstep⟩ := step_answers s
    obtain ⟨n, u, hn, hrun, hbu⟩ := ih t (by rw [step_edges hstep, hes, List.tail_cons])
    exact ⟨n + 1, u, by simpa using hn, (run_succ hstep n).trans hrun, hbu⟩

end Sys2Proof.Proofs

namespace Sys2Proof.Proofs

open Sys2Proof.Machine Sys2Proof.Laws

/-! ## Repeating a command (20_memory R50) -/

theorem respond_respond (s : State) (a b : Status) (c d : Word) : (s.respond a c).respond b d = s.respond b d := rfl

theorem respond_writeReg (s : State) (st : Status) (d : Word) (rd : Reg) (v : Word) :
    (s.respond st d).writeReg rd v = (s.writeReg rd v).respond st d := rfl

theorem writeReg_writeReg (s : State) (rd : Reg) (v : Word) : (s.writeReg rd v).writeReg rd v = s.writeReg rd v := by
  simp [State.writeReg]

theorem finish_finish (s : State) (st : Status) (rd : Reg) (y : Nat) :
    (s.finish st rd y).finish st rd y = s.finish st rd y := by
  by_cases h : st = .ok
  · simp only [State.finish, if_pos h, respond_writeReg, writeReg_writeReg, respond_respond]
  · simp only [State.finish, if_neg h, raise_eq, respond_respond]

theorem finishData_finishData (s : State) (st : Status) (y : Nat) :
    (s.finishData st y).finishData st y = s.finishData st y := by
  simp only [State.finishData]
  split <;> rfl

/-- A command that writes none of its sources leaves every source and its valid bit as they were. -/
theorem exec_keeps_reads {i : Instr} {s t : State} (hdisj : ∀ j ∈ instrWrites i, j ∉ instrReads i)
    (hexec : exec i s = .next t) {j : Reg} (hj : j ∈ instrReads i) : t.F[j] = s.F[j] ∧ t.V[j] = s.V[j] := by
  obtain ⟨t', ht', -, hok, herr, -⟩ := commandsChangeOnlyTheirDestinations i s
  obtain rfl : t = t' := Host.Outcome.next.inj (hexec.symm.trans ht')
  by_cases h0 : t.rspStatus = 0
  · exact (hok h0).1 j (fun hw => hdisj j hw hj)
  · exact (herr h0).1 j List.not_mem_nil

/-- Settles O37, by the rows of the register table: a command that writes none of its sources has the same checks and the
same result the second time, and ending with them again is no change; a Poseidon command writes its own triple. -/
theorem repeatingACommandChangesNothing : Obligations.RepeatingACommandChangesNothing := by
  intro i s t hdisj hexec
  have hkeep := fun j => exec_keeps_reads (j := j) hdisj hexec
  cases i with
  | fld | fconst =>
    obtain rfl := Host.Outcome.next.inj hexec
    exact congrArg Host.Outcome.next (finish_finish s _ _ _)
  | fst a ord =>
    obtain ⟨hF, hV⟩ := hkeep a (List.mem_singleton_self a)
    simp only [exec, execFst, valid_eq, reg_eq, hF, hV] at hexec ⊢
    obtain rfl := Host.Outcome.next.inj hexec
    exact congrArg Host.Outcome.next (finishData_finishData s _ _)
  | tomont _ _ a | frommont _ _ a | finv _ _ a =>
    obtain ⟨hF, hV⟩ := hkeep a (List.mem_singleton_self a)
    simp only [exec, execTomont, execFrommont, execFinv, valid_eq, operand_eq, hF, hV] at hexec ⊢
    obtain rfl := Host.Outcome.next.inj hexec
    exact congrArg Host.Outcome.next (finish_finish s _ _ _)
  | fadd _ _ a b | fsub _ _ a b | fmul _ _ a b | fredc _ _ a b | fdiv _ _ a b =>
    obtain ⟨hFa, hVa⟩ := hkeep a (by simp [instrReads])
    obtain ⟨hFb, hVb⟩ := hkeep b (by simp [instrReads])
    simp only [exec, execFadd, execFsub, execFmul, execFredc, execFdiv, valid_eq, operand_eq, hFa, hVa, hFb,
      hVb] at hexec ⊢
    obtain rfl := Host.Outcome.next.inj hexec
    exact congrArg Host.Outcome.next (finish_finish s _ _ _)
  | parc base | psbox base | pmds base | prnd base | pperm base =>
    have hbase : base ∈ tripleRegs base := List.mem_cons_self
    exact absurd hbase (hdisj base hbase)

/-! ## The latency of a command (20_memory R43, 70_reset R152, R153) -/

theorem wordLatency_pos (w : CmdWord) : 0 < wordLatency w := by
  rw [wordLatency]
  split
  · exact Nat.succ_pos _
  · exact Nat.lt_min.2 ⟨Nat.succ_pos _, Nat.succ_pos _⟩

theorem timedRun_cons {p : Pins} {t u : TimedState} (h : timedEdge p t = .next u) (ps : List Pins) :
    timedRun (p :: ps) t = timedRun ps u := by
  rw [timedRun, h]

/-- The accepting edge starts the count, whatever count stood before. -/
theorem timedEdge_accepts {s : State} {p : Pins} (hb : s.busy = false) (hr : s.rspValid = false) (hrst : p.rst = false)
    (hv : p.cmdValid = true) (n : Nat) :
    timedEdge p ⟨s, n⟩ = .next ⟨s.accept p.cmdWord p.cmdData, wordLatency p.cmdWord⟩ := by
  have hedge : edgeStep { p with done := decide (n ≤ 1) } s = .next (s.accept p.cmdWord p.cmdData) := by
    rw [edgeStep_idle hb hrst, portEdge_idle hb hr hrst, if_pos hv]
  have haccept : acceptsAt p s = true := by simp [acceptsAt, State.cmdReady, hb, hr, hrst, hv]
  simp only [timedEdge, hedge, haccept, if_true]

theorem acceptsAt_busy {s : State} (hb : s.busy = true) (p : Pins) : acceptsAt p s = false := by
  simp [acceptsAt, State.cmdReady, hb]

/-- An edge short of the latency only counts. -/
theorem timedEdge_counts {s : State} {p : Pins} (hb : s.busy = true) (hr : s.rspValid = false) (hrst : p.rst = false)
    {n : Nat} (hn : 1 < n) : timedEdge p ⟨s, n⟩ = .next ⟨s, n - 1⟩ := by
  have hedge : edgeStep { p with done := decide (n ≤ 1) } s = .next s :=
    edgeStep_inFlight hb hr hrst (decide_eq_false (Nat.not_le.2 hn))
  simp only [timedEdge, hedge, acceptsAt_busy hb, Bool.false_eq_true, if_false]

/-- The edge at which the latency runs out completes the command. -/
theorem timedEdge_completes {s : State} {p : Pins} (hb : s.busy = true) (hr : s.rspValid = false) (hrst : p.rst = false) :
    ∃ t, timedEdge p ⟨s, 1⟩ = .next t ∧ Completed s t.core := by
  obtain ⟨t, ht, hdone⟩ := runCurrent_completed s
  have hedge : edgeStep { p with done := decide (1 ≤ 1) } s = .next t := (edgeStep_completes hb hr hrst rfl).trans ht
  exact ⟨⟨t, 0⟩, by simp only [timedEdge, hedge, acceptsAt_busy hb, Bool.false_eq_true, if_false], hdone⟩

theorem timedRun_counts {s : State} (hb : s.busy = true) (hr : s.rspValid = false) {ps : List Pins}
    (hps : ∀ q ∈ ps, q.rst = false) {n : Nat} (hn : ps.length < n) :
    timedRun ps ⟨s, n⟩ = .next ⟨s, n - ps.length⟩ := by
  induction ps generalizing n with
  | nil => rfl
  | cons p ps ih =>
    obtain ⟨hp, hps⟩ := List.forall_mem_cons.1 hps
    rw [List.length_cons] at hn ⊢
    rw [timedRun_cons (timedEdge_counts hb hr hp (by omega)), ih hps (by omega), Nat.sub_sub, Nat.add_comm 1]

/-- At its latency a command has completed: it counts over all edges but the last. -/
theorem timedRun_completes {s : State} (hb : s.busy = true) (hr : s.rspValid = false) {ps : List Pins}
    (hps : ∀ q ∈ ps, q.rst = false) (hpos : 0 < ps.length) :
    ∃ t, timedRun ps ⟨s, ps.length⟩ = .next t ∧ Completed s t.core := by
  induction ps with
  | nil => exact absurd hpos (Nat.lt_irrefl 0)
  | cons p ps ih =>
    obtain ⟨hp, hps⟩ := List.forall_mem_cons.1 hps
    cases ps with
    | nil =>
      obtain ⟨t, ht, hdone⟩ := timedEdge_completes hb hr hp
      exact ⟨t, timedRun_cons ht [], hdone⟩
    | cons q qs =>
      obtain ⟨t, ht, hdone⟩ := ih hps (Nat.succ_pos _)
      exact ⟨t, (timedRun_cons (timedEdge_counts hb hr hp (by simp)) _).trans ht, hdone⟩

/-- Settles O44: the accepting edge starts the count, every edge before the latency counts, and the last one completes. -/
theorem responseComesAtItsLatency : Obligations.ResponseComesAtItsLatency := by
  intro s p ps hb hr hrst hv hps n
  rw [timedRun_cons (timedEdge_accepts hb hr hrst hv n)]
  have hbusy := accept_busy s p.cmdWord p.cmdData
  have hslot := (accept_rspValid s p.cmdWord p.cmdData).trans hr
  refine ⟨timedRun_counts hbusy hslot hps, fun heq => ?_⟩
  obtain ⟨t, ht, hdone⟩ := timedRun_completes hbusy hslot hps (heq ▸ wordLatency_pos p.cmdWord)
  exact ⟨t, heq ▸ ht, hdone.busy, hdone.rspValid⟩

end Sys2Proof.Proofs

namespace Sys2Proof.Proofs

open Sys2Proof.Machine Sys2Proof.Laws

/-! ## The fields of an assembled word (30_encoding R57, R76) -/

@[simp] theorem fieldBit_le (f : PrimeField) : f.bit ≤ 1 := by cases f <;> decide
@[simp] theorem orderBit_lt (o : ByteOrder) : o.bit < 256 := by cases o <;> decide
@[simp] theorem constNum_lt (k : ConstIdx) : k.num < 256 := by cases k <;> decide
@[simp] theorem round_lt (r : BitVec 8) : r.toNat < 256 := r.isLt

theorem fieldBit_inj {f g : PrimeField} (h : f.bit = g.bit) : f = g := by
  revert h; cases f <;> cases g <;> decide
theorem orderBit_inj {o p : ByteOrder} (h : o.bit = p.bit) : o = p := by
  revert h; cases o <;> cases p <;> decide
theorem constNum_inj {k l : ConstIdx} (h : k.num = l.num) : k = l := by
  revert h; cases k <;> cases l <;> decide

section Fields
variable (op : Op) {f rd rs1 rs2 imm : Nat} (hf : f ≤ 1) (hrd : rd < 8) (h1 : rs1 < 8) (h2 : rs2 < 8) (himm : imm < 256)

include hf hrd h1 h2 himm in
theorem toNat_assembleFields : (assembleFields op f rd rs1 rs2 imm).toNat =
    op.code.toNat * 2 ^ 27 + f * 2 ^ 26 + rd * 2 ^ 23 + rs1 * 2 ^ 20 + rs2 * 2 ^ 17 + imm := by
  have hop := op.code.isLt
  rw [assembleFields, BitVec.toNat_ofNat, Nat.mod_eq_of_lt (by omega)]

include hf hrd h1 h2 himm in
theorem opField_assembleFields : opField (assembleFields op f rd rs1 rs2 imm) = op.code := by
  have hop := op.code.isLt
  apply BitVec.eq_of_toNat_eq
  rw [opField, bits, toNat_assembleFields op hf hrd h1 h2 himm, BitVec.toNat_ofNat]
  omega

include hrd h1 h2 himm in
theorem fField_assembleFields (g : PrimeField) : fField (assembleFields op g.bit rd rs1 rs2 imm) = g := by
  have hg := fieldBit_le g
  apply fieldBit_inj
  rw [fField_bit, bits, toNat_assembleFields op hg hrd h1 h2 himm]
  omega

include hf hrd h1 h2 himm in
theorem rdField_assembleFields : rdField (assembleFields op f rd rs1 rs2 imm) = Fin.ofNat 8 rd := by
  rw [rdField, bits, toNat_assembleFields op hf hrd h1 h2 himm]
  exact congrArg (Fin.ofNat 8) (by omega)

include hf hrd h1 h2 himm in
theorem rs1Field_assembleFields : rs1Field (assembleFields op f rd rs1 rs2 imm) = Fin.ofNat 8 rs1 := by
  rw [rs1Field, bits, toNat_assembleFields op hf hrd h1 h2 himm]
  exact congrArg (Fin.ofNat 8) (by omega)

include hf hrd h1 h2 himm in
theorem rs2Field_assembleFields : rs2Field (assembleFields op f rd rs1 rs2 imm) = Fin.ofNat 8 rs2 := by
  rw [rs2Field, bits, toNat_assembleFields op hf hrd h1 h2 himm]
  exact congrArg (Fin.ofNat 8) (by omega)

include hf hrd h1 h2 himm in
theorem immField_assembleFields : immField (assembleFields op f rd rs1 rs2 imm) = BitVec.ofNat 8 imm := by
  rw [immField, bits, toNat_assembleFields op hf hrd h1 h2 himm]
  exact congrArg (BitVec.ofNat 8) (by omega)

include hf hrd h1 h2 in
theorem ordField_assembleFields (o : ByteOrder) : ordField (assembleFields op f rd rs1 rs2 o.bit) = o := by
  have ho : o.bit < 2 := by cases o <;> decide
  apply orderBit_inj
  rw [ordField_bit, bits, toNat_assembleFields op hf hrd h1 h2 (orderBit_lt o), pow_zero, Nat.div_one]
  omega

include hf hrd h1 h2 in
theorem constField_assembleFields (k : ConstIdx) : constField (assembleFields op f rd rs1 rs2 k.num) = k := by
  have hk : k.num < 4 := by cases k <;> decide
  apply constNum_inj
  rw [constField_num, bits, toNat_assembleFields op hf hrd h1 h2 (constNum_lt k), pow_zero, Nat.div_one]
  omega

end Fields

theorem opField_encode (i : Instr) : opField (encode i) = i.op.code := by
  cases i <;> simp [encode, Instr.op, opField_assembleFields]

theorem encode_mask (i : Instr) : encode i &&& i.op.mask = i.op.fixedBits := by
  cases i
  exacts [RowShape.fld _ _, RowShape.fst _ _, RowShape.fconst _ _ _, RowShape.tomont _ _ _, RowShape.frommont _ _ _,
    RowShape.fadd _ _ _ _, RowShape.fsub _ _ _ _, RowShape.fmul _ _ _ _, RowShape.fredc _ _ _ _, RowShape.finv _ _ _,
    RowShape.fdiv _ _ _ _, RowShape.parc _ _, RowShape.psbox _ _, RowShape.pmds _, RowShape.prnd _ _, RowShape.pperm _]

theorem build_encode (i : Instr) : i.op.build (encode i) = i := by
  cases i <;> simp [encode, Instr.op, Op.build, rdField_assembleFields, rs1Field_assembleFields, rs2Field_assembleFields,
    immField_assembleFields, fField_assembleFields, ordField_assembleFields, constField_assembleFields]

theorem tripleFits_encode {i : Instr} (hw : i.wf = true) :
    (i.op.usesTriple && !tripleFits (rdField (encode i))) = false := by
  cases i <;> simp_all [encode, Instr.op, Op.usesTriple, Instr.wf, rdField_assembleFields]

theorem roundFits_encode {i : Instr} (hw : i.wf = true) :
    (i.op.usesRound && !roundFits (immField (encode i))) = false := by
  cases i <;> simp_all [encode, Instr.op, Op.usesRound, Instr.wf, immField_assembleFields]

/-- The decoder gives a well-formed command back: the opcode and the mask of its row match, and its operands pass. -/
theorem decode_encode {i : Instr} (hw : i.wf = true) : decode (encode i) = .ok i := by
  simp [decode, opField_encode, ofCode_code, encode_mask, tripleFits_encode hw, roundFits_encode hw, build_encode]

/-! ## A command does not read its host (20_memory R43) -/

/-- A command ends alike whatever edges the host has in store, and leaves them as they are. -/
theorem exec_edges {i : Instr} {s t : State} (h : exec i s = .next t) (es : List Edge) :
    exec i { s with edges := es } = .next { t with edges := es } := by
  cases i with
  | fst =>
    obtain rfl := Host.Outcome.next.inj h
    exact congrArg Host.Outcome.next (finishData_edges s es _ _)
  | parc | psbox | pmds | prnd | pperm =>
    obtain rfl := Host.Outcome.next.inj h
    exact congrArg Host.Outcome.next (finishTriple_edges s es _ _ _)
  | fld | fconst | tomont | frommont | fadd | fsub | fmul | fredc | finv | fdiv =>
    obtain rfl := Host.Outcome.next.inj h
    exact congrArg Host.Outcome.next (finish_edges s es _ _ _)

/-! ## One command through the ports (20_memory R40 to R43) -/

/-- The edge that presents a command (20_memory R40). -/
def presentEdge (c : Command) : Edge := { Edge.quiet with cmdValid := true, cmdWord := encode c.1, cmdData := c.2 }

/-- The edge that takes a response (20_memory R41). -/
def takeEdge : Edge := { Edge.quiet with rspReady := true }

theorem commandEdges_eq (c : Command) : commandEdges c = [presentEdge c, Edge.quiet, takeEdge] := rfl

theorem step_listed (s : State) (e : Edge) (es : List Edge) :
    step { s with edges := e :: es } = edgeStep e { s with edges := es } := rfl

theorem step_presentEdge {s : State} (hb : s.busy = false) (hr : s.rspValid = false) (c : Command) (es : List Edge) :
    step { s with edges := presentEdge c :: es } = .next ({ s with edges := es }.accept (encode c.1) c.2) := by
  have hidle : ({ s with edges := es } : State).busy = false := hb
  have hslot : ({ s with edges := es } : State).rspValid = false := hr
  rw [step_listed, edgeStep_idle hidle rfl, portEdge_idle hidle hslot rfl]
  rfl

/-- The quiet edge after it ends the command, as it would end with any other edges to come (20_memory R43). -/
theorem step_quietEdge {s t : State} {c : Command} {rest : List Edge} (hw : c.1.wf = true) (hr : s.rspValid = false)
    (hexec : exec c.1 ({ s with edges := rest }.accept (encode c.1) c.2) = .next t) (es : List Edge) :
    step ({ s with edges := Edge.quiet :: es }.accept (encode c.1) c.2) = .next { t with edges := es } := by
  rw [← exec_edges hexec es]
  exact stepRunsDecodedCommand _ c.1 rfl hr rfl rfl (decode_encode hw)

theorem step_takeEdge {s : State} (hb : s.busy = false) (hr : s.rspValid = true) (es : List Edge) :
    step { s with edges := takeEdge :: es } = .next { s with edges := es }.takeRsp := by
  have hidle : ({ s with edges := es } : State).busy = false := hb
  have hwait : ({ s with edges := es } : State).rspValid = true := hr
  rw [step_listed, edgeStep_idle hidle rfl, portEdge_waiting hwait]
  rfl

/-- Settles O45: the presenting edge accepts the word, which decodes to the command; the quiet edge ends it; the last edge
takes its response. -/
theorem commandRunsThroughThePorts : Obligations.CommandRunsThroughThePorts := by
  intro c s rest hw hb hr
  obtain ⟨t, ht, hends⟩ := exec_ends c.1 ({ s with edges := rest }.accept (encode c.1) c.2)
  have hdone := hends.completed
  have hpresent := step_presentEdge hb hr c (Edge.quiet :: takeEdge :: rest)
  have hquiet := step_quietEdge hw hr ht (takeEdge :: rest)
  have htake := step_takeEdge hdone.busy hdone.rspValid rest
  have hedges : t.edges = rest := hdone.edges
  have hrest : { t with edges := rest } = t := by rw [← hedges]
  rw [hrest] at htake
  rw [issue, ht, commandEdges_eq]
  exact (run_succ hpresent 2).trans ((run_succ hquiet 1).trans (run_succ htake 0))

end Sys2Proof.Proofs

namespace Sys2Proof.Proofs

open Sys2Proof.Machine Sys2Proof.Laws

/-! ## The decoder undoes the encoder (30_encoding R57, R76) -/

/-- Settles O2: the opcode and the mask of the row match in the assembled word, and each field holds its operand. -/
theorem decodeOfEncode : Obligations.DecodeOfEncode := fun _ hw => decode_encode hw

/-! ## The shape of a row fixes the fields its command does not use (30_encoding R59, R62, R68) -/

theorem mask_covers_op (op : Op) : op.mask.extractLsb' 27 5 = BitVec.allOnes 5 := by cases op <;> decide
theorem fixedBits_op (op : Op) : op.fixedBits.extractLsb' 27 5 = op.code := by cases op <;> decide
theorem mask_covers_rsv (op : Op) : op.mask.extractLsb' 8 9 = BitVec.allOnes 9 := by cases op <;> decide
theorem fixedBits_rsv (op : Op) : op.fixedBits.extractLsb' 8 9 = 0#9 := by cases op <;> decide

section Row
variable {op : Op} {w : CmdWord} (h : w &&& op.mask = op.fixedBits)
include h

theorem op_of_row : bits w 31 27 = op.code.toNat := by
  rw [← fixedBits_op op]
  exact bits_of_mask h (by decide) (mask_covers_op op)

theorem ofCode_of_row : Op.ofCode (opField w) = some op := by
  rw [opField, op_of_row h, BitVec.ofNat_toNat, BitVec.setWidth_eq]
  exact ofCode_code op

theorem rsv_of_row : bits w 16 8 = 0 := by
  have hrsv := bits_of_mask h (by decide) (mask_covers_rsv op)
  rwa [fixedBits_rsv op] at hrsv

/-- A word of a row is the word assembled from its fields. -/
theorem assembleFields_of_row {f rd rs1 rs2 imm : Nat} (hf : f = bits w 26 26) (hrd : rd = bits w 25 23)
    (h1 : rs1 = bits w 22 20) (h2 : rs2 = bits w 19 17) (himm : imm = bits w 7 0) :
    assembleFields op f rd rs1 rs2 imm = w :=
  assembleFields_eq w (op_of_row h) hf hrd h1 h2 himm (rsv_of_row h)

end Row

/-- The immediate of FLD and FST is its order bit when the bits above it are zero (R63). -/
theorem ordField_of_imm {w : CmdWord} (h : bits w 7 1 = 0) : (ordField w).bit = bits w 7 0 := by
  rw [ordField_bit]
  simp only [bits] at h ⊢
  omega

/-- The immediate of FCONST is its constant index when the bits above it are zero (R64). -/
theorem constField_of_imm {w : CmdWord} (h : bits w 7 2 = 0) : (constField w).num = bits w 7 0 := by
  rw [constField_num]
  simp only [bits] at h ⊢
  omega

/-- Encoding the command read off a word of a row gives the word back: the row fixes every field the command does not use. -/
theorem encode_build {op : Op} {w : CmdWord} (h : w &&& op.mask = op.fixedBits) : encode (op.build w) = w := by
  cases op with
  | fld =>
    have hf : bits w 26 26 = 0 := bits_of_mask h (n := 1) (by decide) (by decide)
    have h1 : bits w 22 20 = 0 := bits_of_mask h (n := 3) (by decide) (by decide)
    have h2 : bits w 19 17 = 0 := bits_of_mask h (n := 3) (by decide) (by decide)
    have himm : bits w 7 1 = 0 := bits_of_mask h (n := 7) (by decide) (by decide)
    exact assembleFields_of_row h hf.symm (rdField_val w) h1.symm h2.symm (ordField_of_imm himm)
  | fst =>
    have hf : bits w 26 26 = 0 := bits_of_mask h (n := 1) (by decide) (by decide)
    have hrd : bits w 25 23 = 0 := bits_of_mask h (n := 3) (by decide) (by decide)
    have h2 : bits w 19 17 = 0 := bits_of_mask h (n := 3) (by decide) (by decide)
    have himm : bits w 7 1 = 0 := bits_of_mask h (n := 7) (by decide) (by decide)
    exact assembleFields_of_row h hf.symm hrd.symm (rs1Field_val w) h2.symm (ordField_of_imm himm)
  | fconst =>
    have h1 : bits w 22 20 = 0 := bits_of_mask h (n := 3) (by decide) (by decide)
    have h2 : bits w 19 17 = 0 := bits_of_mask h (n := 3) (by decide) (by decide)
    have himm : bits w 7 2 = 0 := bits_of_mask h (n := 6) (by decide) (by decide)
    exact assembleFields_of_row h (fField_bit w) (rdField_val w) h1.symm h2.symm (constField_of_imm himm)
  | tomont | frommont | finv =>
    have h2 : bits w 19 17 = 0 := bits_of_mask h (n := 3) (by decide) (by decide)
    have himm : bits w 7 0 = 0 := bits_of_mask h (n := 8) (by decide) (by decide)
    exact assembleFields_of_row h (fField_bit w) (rdField_val w) (rs1Field_val w) h2.symm himm.symm
  | fadd | fsub | fmul | fredc | fdiv =>
    have himm : bits w 7 0 = 0 := bits_of_mask h (n := 8) (by decide) (by decide)
    exact assembleFields_of_row h (fField_bit w) (rdField_val w) (rs1Field_val w) (rs2Field_val w) himm.symm
  | parc | psbox | prnd =>
    have hf : bits w 26 26 = 1 := bits_of_mask h (n := 1) (by decide) (by decide)
    have h1 : bits w 22 20 = 0 := bits_of_mask h (n := 3) (by decide) (by decide)
    have h2 : bits w 19 17 = 0 := bits_of_mask h (n := 3) (by decide) (by decide)
    exact assembleFields_of_row h hf.symm (rdField_val w) h1.symm h2.symm (immField_toNat w)
  | pmds | pperm =>
    have hf : bits w 26 26 = 1 := bits_of_mask h (n := 1) (by decide) (by decide)
    have h1 : bits w 22 20 = 0 := bits_of_mask h (n := 3) (by decide) (by decide)
    have h2 : bits w 19 17 = 0 := bits_of_mask h (n := 3) (by decide) (by decide)
    have himm : bits w 7 0 = 0 := bits_of_mask h (n := 8) (by decide) (by decide)
    exact assembleFields_of_row h hf.symm (rdField_val w) h1.symm h2.symm himm.symm

/-- What the decoder asks of a word: the shape of a row, and a triple and a round that exist where the row's command has them
(30_encoding R65, R72; 10_state R18). -/
structure PassesRow (op : Op) (w : CmdWord) : Prop where
  shape : w &&& op.mask = op.fixedBits
  triple : op.usesTriple = true → tripleFits (rdField w) = true
  round : op.usesRound = true → roundFits (immField w) = true

theorem passesRow_of_decode {w : CmdWord} {i : Instr} (h : decode w = .ok i) : ∃ op, PassesRow op w ∧ i = op.build w := by
  obtain ⟨op, -, hshape, ht, hr, hi⟩ := decode_ok h
  exact ⟨op, ⟨hshape, ht, hr⟩, hi⟩

/-- The value constraints of a row are those of its command. -/
theorem wf_build {op : Op} {w : CmdWord} (h : PassesRow op w) : (op.build w).wf = true := by
  cases op with
  | parc | psbox | prnd => exact Bool.and_eq_true_iff.2 ⟨h.triple rfl, h.round rfl⟩
  | pmds | pperm => exact h.triple rfl
  | fld | fst | fconst | tomont | frommont | fadd | fsub | fmul | fredc | finv | fdiv => rfl

/-- Settles O3: a word the decoder accepts has the shape of its row, which fixes every bit that is no operand. -/
theorem encodeOfDecode : Obligations.EncodeOfDecode := by
  intro w i hdec
  obtain ⟨op, hrow, rfl⟩ := passesRow_of_decode hdec
  exact ⟨encode_build hrow.shape, wf_build hrow⟩

/-! ## Legal words (30_encoding R69, R72, R73) -/

/-- The clauses of the legality predicate are the checks of the decoder. -/
theorem passesRow_iff {op : Op} {w : CmdWord} : PassesRow op w ↔ ((w &&& op.mask == op.fixedBits) &&
    (!op.usesTriple || decide (bits w 25 23 ≤ 5)) && (!op.usesRound || decide (bits w 7 0 < Config.nRounds))) = true := by
  have hstruct : PassesRow op w ↔ w &&& op.mask = op.fixedBits ∧ (op.usesTriple = true → tripleFits (rdField w) = true) ∧
      (op.usesRound = true → roundFits (immField w) = true) :=
    ⟨fun ⟨hs, ht, hr⟩ => ⟨hs, ht, hr⟩, fun ⟨hs, ht, hr⟩ => ⟨hs, ht, hr⟩⟩
  rw [hstruct, tripleFits_eq_true, roundFits_eq_true, rdField_val, immField_toNat]
  cases op.usesTriple <;> cases op.usesRound <;> simp [and_assoc]

theorem legal_iff {w : CmdWord} : legal w = true ↔ ∃ op, PassesRow op w := by
  rw [legal]
  constructor
  · intro h
    split at h
    · exact absurd h Bool.false_ne_true
    · next op _ => exact ⟨op, passesRow_iff.2 h⟩
  · rintro ⟨op, h⟩
    rw [ofCode_of_row h.shape]
    exact passesRow_iff.1 h

theorem decode_of_passesRow {op : Op} {w : CmdWord} (h : PassesRow op w) : decode w = .ok (op.build w) := by
  have hdec := decode_encode (wf_build h)
  rwa [encode_build h.shape] at hdec

theorem legal_iff_decode {w : CmdWord} : legal w = true ↔ ∃ i, decode w = .ok i := by
  rw [legal_iff]
  constructor
  · rintro ⟨op, hrow⟩
    exact ⟨op.build w, decode_of_passesRow hrow⟩
  · rintro ⟨i, hdec⟩
    obtain ⟨op, hrow, -⟩ := passesRow_of_decode hdec
    exact ⟨op, hrow⟩

theorem decode_of_illegal {w : CmdWord} (h : legal w = false) : ∃ e, decode w = .error e := by
  cases hdec : decode w with
  | ok i => exact absurd (legal_iff_decode.2 ⟨i, hdec⟩) (by simp [h])
  | error e => exact ⟨e, rfl⟩

/-- Settles O4: the legality predicate and the decoder make the same checks. -/
theorem decodesExactlyLegalWords : Obligations.DecodesExactlyLegalWords := by
  intro w
  cases h : legal w with
  | true => exact .inl ⟨rfl, legal_iff_decode.1 h⟩
  | false => exact .inr ⟨rfl, decode_of_illegal h⟩

/-- Two rows a word has the shape of are one: the mask of each covers the opcode. -/
theorem row_unique {a b : Op} {w : CmdWord} (ha : w &&& a.mask = a.fixedBits) (hb : w &&& b.mask = b.fixedBits) : a = b :=
  Option.some.inj ((ofCode_of_row ha).symm.trans (ofCode_of_row hb))

/-- Settles O5: a row fixes the opcode, and the opcode names the row. -/
theorem opcodeRowsAreDisjoint : Obligations.OpcodeRowsAreDisjoint := by
  refine ⟨fun a b w ha hb => row_unique ha hb, fun w hlegal => ?_⟩
  obtain ⟨op, hrow⟩ := legal_iff.1 hlegal
  exact ⟨op, hrow.shape, fun b hb => row_unique hb hrow.shape⟩

theorem opCode_lt (op : Op) : op.code.toNat < 0x10 := by cases op <;> decide

theorem not_legal_of_reserved {w : CmdWord} (h : 0x10 ≤ (opField w).toNat) : legal w = false := by
  refine Bool.eq_false_iff.2 fun hlegal => ?_
  obtain ⟨op, hrow⟩ := legal_iff.1 hlegal
  rw [code_of_ofCode (ofCode_of_row hrow.shape)] at h
  exact absurd (opCode_lt op) (Nat.not_lt.2 h)

theorem not_legal_of_rsv {w : CmdWord} (h : rsvField w ≠ 0) : legal w = false := by
  refine Bool.eq_false_iff.2 fun hlegal => ?_
  obtain ⟨op, hrow⟩ := legal_iff.1 hlegal
  exact h (rsv_of_row hrow.shape)

theorem runCurrent_illegal {s : State} (h : legal s.curW = false) : runCurrent s = .next (s.raise .illegal) := by
  obtain ⟨e, he⟩ := decode_of_illegal h
  rw [runCurrent, he]

/-- Settles O11: a row fixes OP below 0x10 and RSV at zero, and the completing step of an illegal word raises E_ILLEGAL. -/
theorem illegalWordWritesNothing : Obligations.IllegalWordWritesNothing := by
  refine ⟨fun w => not_legal_of_reserved, fun w => not_legal_of_rsv, fun s hb hr hrst hdone hill => ?_⟩
  rw [step_runs hb hr hrst hdone]
  exact ⟨_, runCurrent_illegal hill, failed_raise _ .illegal⟩

/-! ## The data word is no operand (30_encoding R67) -/

/-- Ending a command other than FLD with another data word in CUR changes that word alone, by the three ends a meaning can
have. -/
theorem exec_curD {i : Instr} {s t : State} (hfld : ∀ rd ord, i ≠ .fld rd ord) (h : exec i s = .next t) (d : Word) :
    exec i { s with curD := d } = .next { t with curD := d } := by
  cases i with
  | fld rd ord => exact absurd rfl (hfld rd ord)
  | fst =>
    obtain rfl := Host.Outcome.next.inj h
    exact congrArg Host.Outcome.next (finishData_curD s d _ _)
  | parc | psbox | pmds | prnd | pperm =>
    obtain rfl := Host.Outcome.next.inj h
    exact congrArg Host.Outcome.next (finishTriple_curD s d _ _ _)
  | fconst | tomont | frommont | fadd | fsub | fmul | fredc | finv | fdiv =>
    obtain rfl := Host.Outcome.next.inj h
    exact congrArg Host.Outcome.next (finish_curD s d _ _ _)

/-- Settles O35: no end of a command but FLD's reads the data word, and an illegal word raises E_ILLEGAL whatever it is. -/
theorem dataWordIsReadOnlyByFld : Obligations.DataWordIsReadOnlyByFld := by
  refine ⟨fun i s d hfld => ?_, fun s d hill => ?_⟩
  · obtain ⟨t, ht, -⟩ := exec_ends i s
    exact ⟨t, ht, exec_curD hfld ht d⟩
  · exact ⟨s.raise .illegal, runCurrent_illegal hill, runCurrent_illegal (s := { s with curD := d }) hill⟩

/-! ## The words the spec writes out (95_test_vectors L2.1) -/

/-- Settles O1, by running the decoder on the nine words. -/
theorem specWordsDecode : Obligations.SpecWordsDecode := by
  unfold Obligations.SpecWordsDecode
  decide

end Sys2Proof.Proofs

namespace Sys2Proof.Proofs

open Sys2Proof.Machine Sys2Proof.Laws

/-! ## Standard values (00_scope R10) -/

section Values
variable {p : Nat} (h : GoodModulus p)
include h

/-- Converting an integer to a residue and back leaves it modulo P (40_load_convert R84). -/
theorem val_mont (x : Nat) : val p (mont p x) = x % p := by
  have : Fact p.Prime := ⟨h.prime⟩
  apply eq_of_cast_eq (val_lt h.pos _) (Nat.mod_lt _ h.pos)
  rw [cast_val h, cast_mont, mul_inv_cancel_right₀ (radix_ne_zero h), ZMod.natCast_mod]

theorem val_one : val p (fieldConst p .one) = 1 := by
  have hone := val_mont h 1
  rwa [mont, one_mul, Nat.mod_eq_of_lt (Nat.lt_of_succ_lt h.lower)] at hone

/-- A Montgomery square represents the square of the standard value. -/
theorem val_montMul_self (a : Nat) : val p (montMul p a a) = val p a ^ 2 % p := by
  apply eq_of_cast_eq (val_lt h.pos _) (Nat.mod_lt _ h.pos)
  rw [cast_val h, cast_montMul h, ZMod.natCast_mod, Nat.cast_pow, cast_val h]
  ring

end Values

theorem addMod_self (p a : Nat) : addMod p a a = 2 * a % p := by rw [addMod, two_mul]

theorem zero_addMod {p b : Nat} (hb : b < p) : addMod p 0 b = b := by rw [addMod, Nat.zero_add, Nat.mod_eq_of_lt hb]

/-- What is subtracted from zero is its negation. -/
theorem zero_subMod_add {p b : Nat} (hb : b < p) : (subMod p 0 b + b) % p = 0 := by
  rw [subMod, Nat.zero_add, Nat.mod_add_mod, Nat.sub_add_cancel hb.le, Nat.mod_self]

/-! ## One command of an expansion (30_encoding R75) -/

section Issue
variable {f : PrimeField} {rd rs1 rs2 base : Reg} {s : State} (d : Word)

theorem issue_fld (rd : Reg) (ord : ByteOrder) (s : State) :
    ∃ t, issue (.fld rd ord, d) s = .next t ∧ Issued s t rd (intOf ord (laneBytes d)) :=
  issue_writes (intOf_lt ord d) (exec_fld_ok ord)

theorem issue_fconst (f : PrimeField) (rd : Reg) (k : ConstIdx) (s : State) :
    ∃ t, issue (.fconst f rd k, d) s = .next t ∧ Issued s t rd (fieldConst (Config.modulus f) k) :=
  issue_writes (fieldConst_lt f k) (exec_fconst_ok k)

theorem issue_tomont (f : PrimeField) (rd : Reg) (hv : s.V[rs1] = true) :
    ∃ t, issue (.tomont f rd rs1, d) s = .next t ∧ Issued s t rd (mont (Config.modulus f) s.F[rs1].toNat) :=
  issue_writes (lt_word (mont_lt (goodModulus f).pos _)) (exec_tomont_ok hv)

theorem issue_frommont (rd : Reg) (hv : s.V[rs1] = true) (h : s.F[rs1].toNat < Config.modulus f) :
    ∃ t, issue (.frommont f rd rs1, d) s = .next t ∧ Issued s t rd (val (Config.modulus f) s.F[rs1].toNat) :=
  issue_writes (lt_word (val_lt (goodModulus f).pos _)) (exec_frommont_ok hv h)

theorem issue_fst (ord : ByteOrder) (hv : s.V[rs1] = true) :
    ∃ t, issue (.fst rs1 ord, d) s = .next t ∧ laneBytes t.rspData = bytesOf ord s.F[rs1] := by
  obtain ⟨t, ht, -, -, -, -, -, hdata⟩ := issue_answers (c := (.fst rs1 ord, d)) (exec_fst_ok hv)
  exact ⟨t, ht, by rw [hdata]; exact laneBytes_sumBytes (bytesOf_length ord _)⟩

section Binary
variable (rd : Reg) (hv1 : s.V[rs1] = true) (hv2 : s.V[rs2] = true) (h1 : s.F[rs1].toNat < Config.modulus f)
  (h2 : s.F[rs2].toNat < Config.modulus f)
include hv1 hv2 h1 h2

theorem issue_fadd : ∃ t, issue (.fadd f rd rs1 rs2, d) s = .next t ∧
    Issued s t rd (addMod (Config.modulus f) s.F[rs1].toNat s.F[rs2].toNat) :=
  issue_writes (lt_word (addMod_lt (goodModulus f).pos _ _)) (exec_fadd_ok hv1 hv2 h1 h2)

theorem issue_fsub : ∃ t, issue (.fsub f rd rs1 rs2, d) s = .next t ∧
    Issued s t rd (subMod (Config.modulus f) s.F[rs1].toNat s.F[rs2].toNat) :=
  issue_writes (lt_word (subMod_lt (goodModulus f).pos _ _)) (exec_fsub_ok hv1 hv2 h1 h2)

theorem issue_fmul : ∃ t, issue (.fmul f rd rs1 rs2, d) s = .next t ∧
    Issued s t rd (montMul (Config.modulus f) s.F[rs1].toNat s.F[rs2].toNat) :=
  issue_writes (lt_word (montMul_lt (goodModulus f).pos _ _)) (exec_fmul_ok hv1 hv2 h1 h2)

end Binary

theorem issue_pperm (h : TripleReady s base) :
    ∃ t, issue (.pperm base, d) s = .next t ∧ t.triple base = poseidonPerm Config.rc (s.triple base) :=
  issue_writesTriple h (poseidonRounds_lt _ _ _ (triple_felt h.felt)) (exec_pperm_ok ⟨h.fits, h.valid, h.felt⟩)

end Issue

/-! ## What each expansion leaves -/

section Pseudo
variable (f : PrimeField) (fd : Reg) (s : State)

theorem fzero_leaves_zero : ∃ t, issueAll (pseudoExpand (.fzero f fd)) s = .next t ∧ t.F[fd] = 0 ∧ t.V[fd] = true := by
  obtain ⟨t, ht, hw⟩ := issue_fconst 0 f fd .zero s
  exact ⟨t, issueAll_one ht, BitVec.eq_of_toNat_eq hw.value, hw.valid⟩

theorem fone_leaves_one :
    ∃ t, issueAll (pseudoExpand (.fone f fd)) s = .next t ∧ val (Config.modulus f) t.F[fd].toNat = 1 := by
  obtain ⟨t, ht, hw⟩ := issue_fconst 0 f fd .one s
  exact ⟨t, issueAll_one ht, by rw [hw.value]; exact val_one (goodModulus f)⟩

/-- Loading a data word and converting it leaves its integer modulo P as the standard value. -/
theorem load_convert_leaves_value (ord : ByteOrder) (d : Word) :
    ∃ t, issueAll [(.fld fd ord, d), (.tomont f fd fd, 0)] s = .next t ∧
      val (Config.modulus f) t.F[fd].toNat = intOf ord (laneBytes d) % Config.modulus f := by
  obtain ⟨t, ht, hw⟩ := issue_fld d fd ord s
  obtain ⟨u, hu, hw'⟩ := issue_tomont 0 f fd hw.valid
  refine ⟨u, (issueAll_cons ht _).trans (issueAll_one hu), ?_⟩
  rw [hw'.value, hw.value, val_mont (goodModulus f)]

theorem fromU64_leaves_value (v : BitVec 64) :
    ∃ t, issueAll (pseudoExpand (.fromU64 f fd v)) s = .next t ∧ val (Config.modulus f) t.F[fd].toNat = v.toNat := by
  obtain ⟨t, ht, hval⟩ := load_convert_leaves_value f fd s .le (v.setWidth 256)
  refine ⟨t, ht, hval.trans ?_⟩
  rw [intOf, sumBytes_laneBytes, BitVec.toNat_setWidth_of_le (by decide)]
  exact Nat.mod_eq_of_lt (v.isLt.trans (modulus_lower f))

variable {f s} {fs : Reg} (hv : s.V[fs] = true) (hlt : s.F[fs].toNat < Config.modulus f)
include hv hlt

theorem fsqr_leaves_square : ∃ t, issueAll (pseudoExpand (.fsqr f fd fs)) s = .next t ∧
    val (Config.modulus f) t.F[fd].toNat = val (Config.modulus f) s.F[fs].toNat ^ 2 % Config.modulus f := by
  obtain ⟨t, ht, hw⟩ := issue_fmul 0 fd hv hv hlt hlt
  exact ⟨t, issueAll_one ht, by rw [hw.value, val_montMul_self (goodModulus f)]⟩

theorem fdbl_leaves_double : ∃ t, issueAll (pseudoExpand (.fdbl f fd fs)) s = .next t ∧
    t.F[fd].toNat = 2 * s.F[fs].toNat % Config.modulus f := by
  obtain ⟨t, ht, hw⟩ := issue_fadd 0 fd hv hv hlt hlt
  exact ⟨t, issueAll_one ht, by rw [hw.value, addMod_self]⟩

theorem toBytes_answers_bytes (ord : ByteOrder) : ∃ t, issueAll (pseudoExpand (.toBytes f ord fs fd)) s = .next t ∧
    laneBytes t.rspData = bytesOf ord (BitVec.ofNat 256 (val (Config.modulus f) s.F[fs].toNat)) := by
  obtain ⟨t, ht, hw⟩ := issue_frommont 0 fd hv hlt
  obtain ⟨u, hu, hbytes⟩ := issue_fst 0 ord hw.valid
  refine ⟨u, (issueAll_cons ht _).trans (issueAll_one hu), ?_⟩
  rw [hbytes, ← hw.value, BitVec.ofNat_toNat, BitVec.setWidth_eq]

/-- FNEG and FMOV begin by writing zero to a destination that is not the source, which leaves two valid felts: zero and the
source as it was. -/
theorem fconst_zero_keeps_source (hne : fd ≠ fs) : ∃ t, issue (.fconst f fd .zero, 0) s = .next t ∧
    t.V[fd] = true ∧ t.V[fs] = true ∧ t.F[fd].toNat = 0 ∧ t.F[fs] = s.F[fs] ∧
    t.F[fd].toNat < Config.modulus f ∧ t.F[fs].toNat < Config.modulus f := by
  obtain ⟨t, ht, hw⟩ := issue_fconst 0 f fd .zero s
  obtain ⟨hF, hV⟩ := hw.frame fs hne.symm
  exact ⟨t, ht, hw.valid, hV.trans hv, hw.value, hF, hw.value.trans_lt (goodModulus f).pos, hF ▸ hlt⟩

theorem fneg_leaves_negation (hne : fd ≠ fs) : ∃ t, issueAll (pseudoExpand (.fneg f fd fs)) s = .next t ∧
    t.F[fd].toNat < Config.modulus f ∧ (t.F[fd].toNat + s.F[fs].toNat) % Config.modulus f = 0 := by
  obtain ⟨t, ht, hvd, hvs, hzero, hsrc, hltd, hlts⟩ := fconst_zero_keeps_source fd hv hlt hne
  obtain ⟨u, hu, hw⟩ := issue_fsub 0 fd hvd hvs hltd hlts
  refine ⟨u, (issueAll_cons ht _).trans (issueAll_one hu), ?_⟩
  rw [hw.value, hzero, hsrc]
  exact ⟨subMod_lt (goodModulus f).pos _ _, zero_subMod_add hlt⟩

theorem fmov_leaves_copy (hne : fd ≠ fs) :
    ∃ t, issueAll (pseudoExpand (.fmov f fd fs)) s = .next t ∧ t.F[fd] = s.F[fs] := by
  obtain ⟨t, ht, hvd, hvs, hzero, hsrc, hltd, hlts⟩ := fconst_zero_keeps_source fd hv hlt hne
  obtain ⟨u, hu, hw⟩ := issue_fadd 0 fd hvd hvs hltd hlts
  refine ⟨u, (issueAll_cons ht _).trans (issueAll_one hu), BitVec.eq_of_toNat_eq ?_⟩
  rw [hw.value, hzero, hsrc, zero_addMod hlt]

end Pseudo

theorem poseidon_leaves_permutation {fb : Reg} {s : State} (h : TripleReady s fb) :
    ∃ t, issueAll (pseudoExpand (.poseidon fb)) s = .next t ∧
      tripleVal (t.triple fb) = stdPerm Config.rc (tripleVal (s.triple fb)) := by
  obtain ⟨t, ht, hperm⟩ := issue_pperm 0 h
  exact ⟨t, issueAll_one ht, by rw [hperm, poseidonPerm, val_poseidonRounds, stdPerm]⟩

/-- Settles O56, by the expansions one after another. -/
theorem pseudoInstructionsDoAsNamed : Obligations.PseudoInstructionsDoAsNamed := by
  intro f fd fs fb ord d v s
  exact ⟨fzero_leaves_zero f fd s, fone_leaves_one f fd s, fromU64_leaves_value f fd s v,
    load_convert_leaves_value f fd s ord d,
    fun hv hlt => ⟨fsqr_leaves_square fd hv hlt, fdbl_leaves_double fd hv hlt, toBytes_answers_bytes fd hv hlt ord,
      fun hne => ⟨fneg_leaves_negation fd hv hlt hne, fmov_leaves_copy fd hv hlt hne⟩⟩,
    poseidon_leaves_permutation⟩

end Sys2Proof.Proofs

namespace Sys2Proof.Proofs

open Sys2Proof.Machine Sys2Proof.Laws

/-! ## The integer and the bytes of a word in either order (20_memory R44 to R46) -/

theorem reverse_laneBytes_byte (d : Word) {k : Nat} (hk : k < 32) :
    ((laneBytes d).reverse.getD k 0).toNat = d.toNat / 256 ^ (31 - k) % 256 := by
  rw [List.getD_reverse _ (by rwa [laneBytes_length]), laneBytes_length, laneBytes_byte d (by omega)]

theorem intOf_le_eq_sum (d : Word) :
    intOf .le (laneBytes d) = ∑ k ∈ Finset.range 32, d.toNat / 256 ^ k % 256 * 256 ^ k := by
  rw [intOf, sumBytes_eq_sum, laneBytes_length]
  exact Finset.sum_congr rfl fun k hk => by rw [laneBytes_byte d (Finset.mem_range.1 hk)]

/-- The big-endian sum runs over the same bytes as the little-endian one, last byte first. -/
theorem intOf_be_eq_sum (d : Word) :
    intOf .be (laneBytes d) = ∑ k ∈ Finset.range 32, d.toNat / 256 ^ k % 256 * 256 ^ (31 - k) := by
  rw [intOf, sumBytes_eq_sum, List.length_reverse, laneBytes_length, ← Finset.sum_range_reflect]
  refine Finset.sum_congr rfl fun k hk => ?_
  have hlt : k < 32 := Finset.mem_range.1 hk
  rw [reverse_laneBytes_byte d (by omega), show 31 - (32 - 1 - k) = k by omega]

/-- Arrays of 32 bytes with one sum are one array. -/
theorem sumBytes_inj {as bs : List Byte} (ha : as.length = 32) (hb : bs.length = 32)
    (h : sumBytes as = sumBytes bs) : as = bs := by
  rw [← laneBytes_sumBytes ha, h, laneBytes_sumBytes hb]

/-- In either order the integer of a data word determines the word. -/
theorem intOf_laneBytes_inj {ord : ByteOrder} {d e : Word} (h : intOf ord (laneBytes d) = intOf ord (laneBytes e)) :
    d = e := by
  have hlanes : laneBytes d = laneBytes e := by
    cases ord with
    | le => exact sumBytes_inj (laneBytes_length d) (laneBytes_length e) h
    | be =>
      exact List.reverse_injective
        (sumBytes_inj (by simp [laneBytes_length]) (by simp [laneBytes_length]) h)
  apply BitVec.eq_of_toNat_eq
  rw [← sumBytes_laneBytes d, hlanes, sumBytes_laneBytes]

/-! ## The reducer (42_montgomery R95) -/

section Reducer
variable {p : Nat} (h : GoodModulus p)
include h

/-- The division by R in a reduction is exact. -/
theorem redcU_mul_radix (t : Nat) : redcU p t * Config.radix = t + redcM p t * p :=
  Nat.div_mul_cancel (Nat.dvd_of_mod_eq_zero (low_bits_clear h.odd (by decide) t))

/-- Below P·R the reduced value needs one conditional subtraction at most. -/
theorem redcU_lt {t : Nat} (ht : t < p * Config.radix) : redcU p t < 2 * p := by
  have hm : redcM p t * p < Config.radix * p := Nat.mul_lt_mul_of_pos_right (Nat.mod_lt _ (by decide)) h.pos
  refine Nat.div_lt_of_lt_mul ?_
  rw [Nat.mul_comm Config.radix p] at hm
  calc t + redcM p t * p < p * Config.radix + p * Config.radix := Nat.add_lt_add ht hm
    _ = Config.radix * (2 * p) := by ring

/-- The reducer multiplies by R⁻¹ modulo P. -/
theorem redc_eq {t : Nat} (ht : t < p * Config.radix) : redc p t = t * rInv p % p := by
  have : Fact p.Prime := ⟨h.prime⟩
  have hcast : ((redcU p t : Nat) : ZMod p) * (Config.radix : Nat) = t := by
    rw [← Nat.cast_mul, redcU_mul_radix h, Nat.cast_add, Nat.cast_mul, ZMod.natCast_self, mul_zero, add_zero]
  rw [redc, condSub_eq_mod (redcU_lt h ht)]
  apply mods_eq_of_cast_eq
  rw [Nat.cast_mul, cast_rInv h, eq_mul_inv_iff_mul_eq₀ (radix_ne_zero h), hcast]

/-- A Montgomery product with R² mod P is the conversion to a residue (40_load_convert R82). -/
theorem montMul_r2 (x : Nat) : montMul p x (fieldConst p .r2) = mont p x := by
  have : Fact p.Prime := ⟨h.prime⟩
  apply eq_of_cast_eq (montMul_lt h.pos _ _) (mont_lt h.pos _)
  rw [cast_montMul h, cast_mont, fieldConst, ZMod.natCast_mod, Nat.cast_pow, pow_two, ← mul_assoc,
    mul_inv_cancel_right₀ (radix_ne_zero h)]

/-- Converting a felt to its standard value and back gives it again (40_load_convert R84). -/
theorem mont_val {a : Nat} (ha : a < p) : mont p (val p a) = a := by
  have : Fact p.Prime := ⟨h.prime⟩
  apply eq_of_cast_eq (mont_lt h.pos _) ha
  rw [cast_mont, cast_val h, inv_mul_cancel_right₀ (radix_ne_zero h)]

end Reducer

/-- Settles O48: each use of the reducer stays below P·R, where it multiplies by R⁻¹. -/
theorem reducerSharesAllConversions : Obligations.ReducerSharesAllConversions := by
  intro f a b x y ha hb hy
  have h := goodModulus f
  have hx : x.toNat < Config.radix := x.isLt
  have hbR : b < Config.radix := hb.trans h.upper
  have hr2 : fieldConst (Config.modulus f) .r2 < Config.modulus f := Nat.mod_lt _ h.pos
  have hwide : y.toNat * Config.radix + x.toNat < Config.modulus f * Config.radix :=
    calc y.toNat * Config.radix + x.toNat < (y.toNat + 1) * Config.radix := by rw [Nat.succ_mul]; omega
      _ ≤ Config.modulus f * Config.radix := Nat.mul_le_mul_right _ hy
  refine ⟨?tomont, ?frommont, ?fmul, ?fredc⟩
  case tomont =>
    rw [redc_eq h (Nat.mul_comm x.toNat _ ▸ Nat.mul_lt_mul'' hr2 hx)]
    exact montMul_r2 h x.toNat
  case frommont => exact redc_eq h (ha.trans_le (Nat.le_mul_of_pos_right _ (by decide)))
  case fmul => exact redc_eq h (Nat.mul_lt_mul'' ha hbR)
  case fredc => exact redc_eq h hwide

/-! ## The commands (40_load_convert R77 to R81) -/

/-- Settles O14: FLD writes the integer of the data word, which is the sum over its bytes in the order asked for. -/
theorem fldStoresTheInteger : Obligations.FldStoresTheInteger := by
  intro rd ord s
  have hw := finish_ok s rd (intOf_lt ord s.curD)
  refine ⟨_, exec_fld_ok ord, ?_⟩
  cases ord with
  | le => exact { hw with value := hw.value.trans (intOf_le_eq_sum s.curD) }
  | be => exact { hw with value := hw.value.trans (intOf_be_eq_sum s.curD) }

/-- Settles O15: the lanes of the answer are the register's bytes, in the order asked for. -/
theorem fstAnswersTheBytes : Obligations.FstAnswersTheBytes := by
  intro rs1 ord s hv
  refine ⟨_, _, exec_fst_ok hv, finishData_ok s _, fun k hk => ?_⟩
  rw [← laneBytes_byte _ hk, laneBytes_sumBytes (bytesOf_length ord _)]
  cases ord with
  | le => exact laneBytes_byte _ hk
  | be => exact reverse_laneBytes_byte _ hk

/-- Settles O16, constant by constant. -/
theorem fconstWritesTheConstant : Obligations.FconstWritesTheConstant := by
  intro f rd k s
  have hw := finish_ok s rd (fieldConst_lt f k)
  exact ⟨_, exec_fconst_ok k, by cases k <;> exact hw⟩

/-- Settles O17: TOMONT checks nothing but the valid bit. -/
theorem tomontReducesAnyPattern : Obligations.TomontReducesAnyPattern := by
  intro f rd rs1 s hv
  exact ⟨_, exec_tomont_ok hv, finish_ok s rd (lt_word (mont_lt (goodModulus f).pos _))⟩

/-- Settles O18: the standard value of a felt is below P, and its residue is the felt. -/
theorem frommontWritesTheStandardValue : Obligations.FrommontWritesTheStandardValue := by
  intro f rd rs1 s hv hlt
  have hval := val_lt (goodModulus f).pos s.F[rs1].toNat
  exact ⟨_, _, exec_frommont_ok hv hlt, finish_ok s rd (lt_word hval), hval, mont_val (goodModulus f) hlt⟩

/-! ## The round trip of a byte array (40_load_convert R85) -/

/-- The response of FST denotes the register's integer in the order it was asked for. -/
theorem issue_fst_answers_int {rs1 : Reg} {s : State} (d : Word) (ord : ByteOrder) (hv : s.V[rs1] = true) :
    ∃ t, issue (.fst rs1 ord, d) s = .next t ∧ t.rspStatus = 0 ∧ intOf ord (laneBytes t.rspData) = s.F[rs1].toNat := by
  obtain ⟨t, ht, -, -, -, -, hstatus, hdata⟩ := issue_answers (c := (.fst rs1 ord, d)) (exec_fst_ok hv)
  refine ⟨t, ht, hstatus, ?_⟩
  rw [hdata]
  exact (congrArg (intOf ord) (laneBytes_sumBytes (bytesOf_length ord _))).trans (intOf_bytesOf ord _)

/-- Loading a word, converting it to a residue and back and storing it answers with its integer modulo P. -/
theorem roundTrip_answers_mod (f : PrimeField) (ord : ByteOrder) (x y : Reg) (d : Word) (s : State) :
    ∃ t, issueAll [(.fld x ord, d), (.tomont f x x, 0), (.frommont f y x, 0), (.fst y ord, 0)] s = .next t ∧
      t.rspStatus = 0 ∧ intOf ord (laneBytes t.rspData) = intOf ord (laneBytes d) % Config.modulus f := by
  obtain ⟨s₁, h₁, loaded⟩ := issue_fld d x ord s
  obtain ⟨s₂, h₂, residue⟩ := issue_tomont 0 f x loaded.valid
  have hfelt : s₂.F[x].toNat < Config.modulus f := residue.value ▸ mont_lt (goodModulus f).pos _
  obtain ⟨s₃, h₃, standard⟩ := issue_frommont 0 y residue.valid hfelt
  obtain ⟨t, h₄, hstatus, hint⟩ := issue_fst_answers_int 0 ord standard.valid
  refine ⟨t, ?_, hstatus, ?_⟩
  · rw [issueAll_cons h₁, issueAll_cons h₂, issueAll_cons h₃, issueAll_one h₄]
  · rw [hint, standard.value, residue.value, loaded.value, val_mont (goodModulus f)]

/-- Settles O55: the answer's integer is the loaded one modulo P, and the integer determines the word. -/
theorem byteRoundTripReducesModP : Obligations.ByteRoundTripReducesModP := by
  intro f ord x y d s
  obtain ⟨t, ht, hstatus, hint⟩ := roundTrip_answers_mod f ord x y d s
  refine ⟨t, ht, hstatus, hint, ?same, ?below⟩
  case same =>
    rintro rfl
    exact hint ▸ Nat.mod_lt _ (goodModulus f).pos
  case below =>
    intro hlt
    exact intOf_laneBytes_inj (hint.trans (Nat.mod_eq_of_lt hlt))

end Sys2Proof.Proofs

namespace Sys2Proof.Proofs

open Sys2Proof.Machine Sys2Proof.Laws

/-! ## The sum and the difference modulo P (41_add_sub R87, R89, R91) -/

theorem addMod_comm (p a b : Nat) : addMod p a b = addMod p b a := by rw [addMod, addMod, Nat.add_comm]

theorem addMod_assoc (p a b c : Nat) : addMod p (addMod p a b) c = addMod p a (addMod p b c) := by
  simp only [addMod, Nat.mod_add_mod, Nat.add_mod_mod, Nat.add_assoc]

theorem addMod_zero {p a : Nat} (ha : a < p) : addMod p a 0 = a := by rw [addMod_comm, zero_addMod ha]

theorem subMod_addMod_cancel {p a b : Nat} (ha : a < p) (hb : b < p) : subMod p (addMod p a b) b = a := by
  rw [subMod, addMod, Nat.mod_add_mod, Nat.add_assoc, Nat.add_sub_cancel' hb.le, Nat.add_mod_right, Nat.mod_eq_of_lt ha]

/-- Adding P before subtracting does not change the least non-negative residue of the difference of integers. -/
theorem subMod_eq_emod {p b : Nat} (a : Nat) (hb : b ≤ p) : subMod p a b = (((a : Int) - b) % p).toNat := by
  have hcast : ((a + (p - b) : Nat) : Int) = (a : Int) - b + p := by omega
  rw [subMod, ← Int.toNat_natCast ((a + (p - b)) % p), Int.natCast_mod, hcast, Int.add_emod_right]

theorem subMod_of_lt {p a b : Nat} (hlt : a < b) (hb : b ≤ p) : subMod p a b = a + (p - b) :=
  Nat.mod_eq_of_lt (by omega)

theorem subMod_of_le {p a b : Nat} (hle : b ≤ a) (ha : a < p) : subMod p a b = a - b := by
  have hsplit : a + (p - b) = a - b + p := by omega
  rw [subMod, hsplit, Nat.add_mod_right, Nat.mod_eq_of_lt (by omega)]

/-- Settles O52, law by law. -/
theorem additionLaws : Obligations.AdditionLaws := by
  intro f a b c ha hb _
  exact ⟨addMod_comm _ a b, addMod_assoc _ a b c, addMod_zero ha, subMod_addMod_cancel ha hb⟩

/-- Settles O19: each command ends with its sum or difference, which is below P and so fits the register. -/
theorem faddFsubWriteSumAndDifference : Obligations.FaddFsubWriteSumAndDifference := by
  intro f rd rs1 rs2 s hv1 hv2 h1 h2
  refine ⟨⟨_, exec_fadd_ok hv1 hv2 h1 h2, ?sum⟩, ⟨_, exec_fsub_ok hv1 hv2 h1 h2, ?difference⟩⟩
  case sum => exact finish_ok s rd (lt_word (addMod_lt (goodModulus f).pos _ _))
  case difference =>
    rw [← subMod_eq_emod _ h2.le]
    exact finish_ok s rd (lt_word (subMod_lt (goodModulus f).pos _ _))

/-! ## The adder and the subtractor (41_add_sub R88, R90) -/

theorem toNat_carrySum (a b : Word) : (a.setWidth 257 + b.setWidth 257).toNat = a.toNat + b.toNat := by
  rw [BitVec.toNat_add, BitVec.toNat_setWidth_of_le (by decide), BitVec.toNat_setWidth_of_le (by decide)]
  exact Nat.mod_eq_of_lt (by omega)

section Paths
variable {p : Nat} {a b : Word} (hp : p < 2 ^ 256) (ha : a.toNat < p) (hb : b.toNat < p)
include hp ha hb

/-- Since the sum keeps its carry, the adder's comparison and subtraction are those of natural numbers. -/
theorem toNat_adderPath : (adderPath p a b).toNat = condSub p (a.toNat + b.toNat) := by
  have hmod : (BitVec.ofNat 257 p).toNat = p := Nat.mod_eq_of_lt (by omega)
  have hsum := toNat_carrySum a b
  simp only [adderPath, condSub, BitVec.le_def, hmod, hsum, BitVec.toNat_setWidth]
  split
  · next hge =>
    rw [BitVec.toNat_sub_of_le (by rwa [BitVec.le_def, hmod, hsum]), hmod, hsum]
    exact Nat.mod_eq_of_lt (by omega)
  · next hlt =>
    rw [hsum]
    exact Nat.mod_eq_of_lt (by omega)

/-- A borrow wraps the difference by 2^256, which adding P undoes. -/
theorem toNat_subtractorPath : (subtractorPath p a b).toNat = subMod p a.toNat b.toNat := by
  simp only [subtractorPath, decide_eq_true_eq, BitVec.lt_def]
  split
  · next hlt =>
    rw [subMod_of_lt hlt hb.le, BitVec.toNat_add, BitVec.toNat_sub, BitVec.toNat_ofNat]
    omega
  · next hge =>
    rw [subMod_of_le (Nat.not_lt.1 hge) ha]
    exact BitVec.toNat_sub_of_le (Nat.not_lt.1 hge)

end Paths

/-- Settles O46: the sum of two felts is below 2P, where one conditional subtraction gives the residue; the difference is
corrected on a borrow. -/
theorem adderAndSubtractorAreExact : Obligations.AdderAndSubtractorAreExact := by
  intro f a b ha hb
  have hp := modulus_upper f
  have hsum : a.toNat + b.toNat < 2 * Config.modulus f := by omega
  exact ⟨(toNat_adderPath hp ha hb).trans (condSub_eq_mod hsum), toNat_subtractorPath hp ha hb⟩

end Sys2Proof.Proofs

namespace Sys2Proof.Proofs

open Sys2Proof.Machine Sys2Proof.Laws

/-! ## The word-serial multiplier (42_montgomery R98) -/

/-- The low n + 1 limbs of a value are its low n limbs with limb n above them. -/
theorem mod_limbs_succ (b n : Nat) :
    b % 2 ^ (Config.limbBits * (n + 1)) =
      b % 2 ^ (Config.limbBits * n) + 2 ^ (Config.limbBits * n) * limb b n := by
  rw [Nat.mul_succ, pow_add, Nat.mod_mul, limb]

/-- Shifting the cleared low limb out loses nothing. -/
theorem ciosStep_mul_limb {p : Nat} (hp : p % 2 = 1) (a b i t : Nat) :
    ciosStep p a b i t * 2 ^ Config.limbBits = ciosReduced p (ciosSum a b i t) :=
  Nat.div_mul_cancel (Nat.dvd_of_mod_eq_zero (ciosReduced_low hp _))

theorem cast_ciosReduced (p t : Nat) : ((ciosReduced p t : Nat) : ZMod p) = t := by
  rw [ciosReduced, Nat.cast_add, Nat.cast_mul, ZMod.natCast_self, mul_zero, add_zero]

/-- The loop's invariant: after n steps the accumulator times 2^(64 n) is a times the low n limbs of b, modulo P. -/
theorem cast_ciosLoop {p : Nat} (hp : p % 2 = 1) (a b n : Nat) :
    ((ciosLoop p a b n * 2 ^ (Config.limbBits * n) : Nat) : ZMod p) =
      ((a * (b % 2 ^ (Config.limbBits * n)) : Nat) : ZMod p) := by
  induction n with
  | zero => simp [ciosLoop, Nat.mod_one]
  | succ n ih =>
    have hstep : ((ciosLoop p a b (n + 1) * 2 ^ Config.limbBits : Nat) : ZMod p) =
        ((ciosLoop p a b n + a * limb b n : Nat) : ZMod p) := by
      rw [ciosLoop, ciosStep_mul_limb hp, cast_ciosReduced, ciosSum]
    rw [mod_limbs_succ, Nat.mul_succ, pow_add]
    push_cast at ih hstep ⊢
    linear_combination (2 : ZMod p) ^ (Config.limbBits * n) * hstep + ih

/-- The four limbs of b are all of it, and their total shift is R. -/
theorem cios_eq_montMul {p a b : Nat} (h : GoodModulus p) (ha : a < p) (hb : b < p) : cios p a b = montMul p a b := by
  have : Fact p.Prime := ⟨h.prime⟩
  have hloop := cast_ciosLoop h.odd a b Config.nLimbs
  rw [show b % 2 ^ (Config.limbBits * Config.nLimbs) = b from Nat.mod_eq_of_lt (hb.trans h.upper)] at hloop
  rw [cios, condSub_eq_mod (ciosLoop_lt b ha _)]
  apply mods_eq_of_cast_eq
  rw [Nat.cast_mul, cast_rInv h, eq_mul_inv_iff_mul_eq₀ (radix_ne_zero h), ← Nat.cast_mul]
  exact hloop

/-- Settles O49: the accumulator stays below 2P, so both sums of a step stay below 2P times a limb's range. -/
theorem wordSerialMultiplierIsExact : Obligations.WordSerialMultiplierIsExact := by
  intro f a b ha hb
  have h := goodModulus f
  refine ⟨cios_eq_montMul h ha hb, ciosLoop_lt b ha 4, fun i _ => ?_⟩
  obtain ⟨hle, hlt⟩ := cios_sums_lt b i ha (ciosLoop_lt b ha i)
  have hwidth : 2 * Config.modulus f * 2 ^ Config.limbBits ≤ 2 ^ 384 :=
    show 2 * Config.modulus f * 2 ^ 64 ≤ 2 ^ 384 by have := h.upper; omega
  exact ⟨hle.trans_lt (hlt.trans_le hwidth), hlt.trans_le hwidth, ciosReduced_low h.odd _⟩

/-! ## Every value the reducer accepts (42_montgomery R95 to R97) -/

/-- The sum that is divided by R is below 2 P R, which fits 513 bits. -/
theorem redc_sum_lt {p t : Nat} (h : GoodModulus p) (ht : t < p * Config.radix) : t + redcM p t * p < 2 ^ 513 := by
  have hu := redcU_lt h ht
  have hp := h.upper
  rw [← redcU_mul_radix h, Config.radix]
  omega

/-- Settles O47: the multiple of P clears the low half, and the quotient needs one conditional subtraction at most. -/
theorem redcReducesEveryLegalValue : Obligations.RedcReducesEveryLegalValue := by
  intro f T hT
  have h := goodModulus f
  have hvalue := redc_eq h hT
  exact ⟨low_bits_clear h.odd (by decide) T, redc_sum_lt h hT, redcU_lt h hT, hvalue ▸ Nat.mod_lt _ h.pos, hvalue⟩

/-! ## FMUL and FREDC (42_montgomery R93, R94) -/

/-- Dividing any value by R and multiplying by R again leaves it modulo P. -/
theorem mont_val_eq_mod {p : Nat} (h : GoodModulus p) (t : Nat) : mont p (val p t) = t % p := by
  have : Fact p.Prime := ⟨h.prime⟩
  apply mods_eq_of_cast_eq
  rw [Nat.cast_mul, cast_val h, inv_mul_cancel_right₀ (radix_ne_zero h)]

/-- Settles O20: a Montgomery product is the product of the operands divided by R. -/
theorem fmulWritesTheMontgomeryProduct : Obligations.FmulWritesTheMontgomeryProduct := by
  intro f rd rs1 rs2 s hv1 hv2 h1 h2
  have hlt := montMul_lt (goodModulus f).pos s.F[rs1].toNat s.F[rs2].toNat
  exact ⟨_, _, exec_fmul_ok hv1 hv2 h1 h2, finish_ok s rd (lt_word hlt), hlt, mont_val_eq_mod (goodModulus f) _⟩

/-- Settles O21: the wide value divided by R, with no check of its low half. -/
theorem fredcReducesTheWideValue : Obligations.FredcReducesTheWideValue := by
  intro f rd rs1 rs2 s hv1 hv2 h2
  have hlt := reduceWide_lt (goodModulus f).pos s.F[rs1].toNat s.F[rs2].toNat
  exact ⟨_, _, exec_fredc_ok hv1 hv2 h2, finish_ok s rd (lt_word hlt), hlt, mont_val_eq_mod (goodModulus f) _⟩

/-! ## The laws of the Montgomery product (42_montgomery R99) -/

theorem montMul_comm (p a b : Nat) : montMul p a b = montMul p b a := by rw [montMul, montMul, Nat.mul_comm a b]

theorem montMul_zero (p a : Nat) : montMul p a 0 = 0 := by rw [montMul, Nat.mul_zero, Nat.zero_mul, Nat.zero_mod]

section Products
variable {p : Nat} (h : GoodModulus p)
include h

/-- R mod P represents 1. -/
theorem montMul_one {a : Nat} (ha : a < p) : montMul p a (fieldConst p .one) = a := by
  have : Fact p.Prime := ⟨h.prime⟩
  apply eq_of_cast_eq (montMul_lt h.pos _ _) ha
  rw [cast_montMul h, fieldConst, ZMod.natCast_mod, mul_inv_cancel_right₀ (radix_ne_zero h)]

theorem montMul_assoc (a b c : Nat) : montMul p (montMul p a b) c = montMul p a (montMul p b c) := by
  apply eq_of_cast_eq (montMul_lt h.pos _ _) (montMul_lt h.pos _ _)
  simp only [cast_montMul h]
  ring

theorem montMul_addMod (a b c : Nat) :
    montMul p a (addMod p b c) = addMod p (montMul p a b) (montMul p a c) := by
  apply eq_of_cast_eq (montMul_lt h.pos _ _) (addMod_lt h.pos _ _)
  simp only [cast_montMul h, cast_addMod]
  ring

/-- The product of two residues represents the product of their standard values (42_montgomery R93). -/
theorem montMul_mont (x y : Nat) : montMul p (mont p x) (mont p y) = mont p (x * y) := by
  have : Fact p.Prime := ⟨h.prime⟩
  apply eq_of_cast_eq (montMul_lt h.pos _ _) (mont_lt h.pos _)
  rw [cast_montMul h, cast_mont, cast_mont, cast_mont, Nat.cast_mul, ← mul_assoc,
    mul_inv_cancel_right₀ (radix_ne_zero h), mul_right_comm]

end Products

/-- Settles O53, law by law. -/
theorem multiplicationLaws : Obligations.MultiplicationLaws := by
  intro f a b c ha _ _
  have h := goodModulus f
  exact ⟨montMul_one h ha, montMul_comm _ a b, montMul_assoc h a b c, montMul_addMod h a b c, montMul_zero _ a,
    montMul_mont h 6 7⟩

end Sys2Proof.Proofs

namespace Sys2Proof.Proofs

open Sys2Proof.Machine Sys2Proof.Laws

/-! ## Division by zero (43_inverse_div R106) -/

/-- Only a Poseidon command can be ill-formed, and none of those divides. -/
theorem wf_of_dividesByZero {i : Instr} {s : State} (hz : DividesByZero i s) : i.wf = true := by
  obtain ⟨j, hj, -⟩ := hz
  cases i with
  | parc | psbox | pmds | prnd | pperm => cases hj
  | _ => rfl

/-- Settles O31, by the ways a command can end: with its operands written and in range, a zero divisor leaves only E_DIV0. -/
theorem divisionByZeroIsReported : Obligations.DivisionByZeroIsReported := by
  intro i s hv hr hz
  obtain ⟨t, ht, hends⟩ := exec_ends i s
  refine ⟨t, ht, ?_⟩
  cases hends with
  | illegal hw => exact absurd ((wf_of_dividesByZero hz).symm.trans hw) (by decide)
  | uninit _ hv' => exact absurd hv hv'
  | range _ _ hr' => exact absurd hr hr'
  | div0 _ _ _ _ h => exact h
  | wrote _ _ _ hz' | wroteTriple _ _ _ hz' | answered _ _ _ hz' => exact absurd hz hz'

/-! ## The inverse and the quotient of residues (43_inverse_div R102, R104, R107) -/

section Quotients
variable {p : Nat} (h : GoodModulus p)
include h

/-- Division is one inversion and one multiplication (43_inverse_div R105), for a zero divisor too. -/
theorem montDiv_eq_montMul_montInv (a b : Nat) : montDiv p a b = montMul p a (montInv p b) := by
  have : Fact p.Prime := ⟨h.prime⟩
  apply eq_of_cast_eq (montDiv_lt h.pos _ _) (montMul_lt h.pos _ _)
  rw [cast_montDiv h, cast_montMul h, cast_montInv h, pow_two]
  field_simp [radix_ne_zero h]

theorem montDiv_one {a : Nat} (ha : a < p) : montDiv p a (fieldConst p .one) = a := by
  have : Fact p.Prime := ⟨h.prime⟩
  apply eq_of_cast_eq (montDiv_lt h.pos _ _) ha
  rw [cast_montDiv h, fieldConst, ZMod.natCast_mod, inv_mul_cancel_right₀ (radix_ne_zero h)]

theorem montInv_montInv {b : Nat} (hb : b < p) : montInv p (montInv p b) = b := by
  have : Fact p.Prime := ⟨h.prime⟩
  apply eq_of_cast_eq (montInv_lt h.pos _) hb
  rw [cast_montInv h, cast_montInv h, mul_inv, inv_inv, mul_inv_cancel_left₀ (pow_ne_zero 2 (radix_ne_zero h))]

section NonzeroDivisor
variable {b : Nat} (hne : (b : ZMod p) ≠ 0)
include hne

theorem montInv_mul_mod : montInv p b * b % p = Config.radix ^ 2 % p := by
  have : Fact p.Prime := ⟨h.prime⟩
  apply mods_eq_of_cast_eq
  rw [Nat.cast_mul, cast_montInv h, inv_mul_cancel_right₀ hne, Nat.cast_pow]

theorem montDiv_mul_mod (a : Nat) : montDiv p a b * b % p = a * Config.radix % p := by
  have : Fact p.Prime := ⟨h.prime⟩
  apply mods_eq_of_cast_eq
  rw [Nat.cast_mul, cast_montDiv h, mul_right_comm, inv_mul_cancel_right₀ hne, Nat.cast_mul]

theorem montMul_montInv_self : montMul p (montInv p b) b = fieldConst p .one := by
  have : Fact p.Prime := ⟨h.prime⟩
  apply eq_of_cast_eq (montMul_lt h.pos _ _) (Nat.mod_lt _ h.pos)
  rw [cast_montMul h, cast_montInv h, inv_mul_cancel_right₀ hne, pow_two, mul_inv_cancel_right₀ (radix_ne_zero h),
    ZMod.natCast_mod]

/-- Multiplying by the divisor undoes a division, since the divisor's inverse undoes the divisor. -/
theorem montMul_montDiv_cancel {a : Nat} (ha : a < p) : montMul p (montDiv p a b) b = a := by
  rw [montDiv_eq_montMul_montInv h, montMul_assoc h, montMul_montInv_self h hne, montMul_one h ha]

end NonzeroDivisor

end Quotients

theorem cast_ne_zero_of_lt {p b : Nat} (h0 : b ≠ 0) (hb : b < p) : (b : ZMod p) ≠ 0 :=
  mt (cast_eq_zero_iff_of_lt hb).1 h0

/-- Settles O54, law by law. -/
theorem divisionLaws : Obligations.DivisionLaws := by
  intro f a b c ha h0 hb _ _
  have h := goodModulus f
  have hne := cast_ne_zero_of_lt h0.ne' hb
  exact ⟨montMul_montDiv_cancel h hne ha, montMul_montInv_self h hne, montInv_montInv h hb,
    montDiv_eq_montMul_montInv h a b, montDiv_one h ha⟩

/-! ## FINV and FDIV (43_inverse_div R102, R104) -/

/-- Settles O22: a nonzero felt passes FINV's checks, and the factor R² is what is left when the operand cancels. -/
theorem finvWritesTheInverse : Obligations.FinvWritesTheInverse := by
  intro f rd rs1 s hv hlt h0
  have h := goodModulus f
  have hy := montInv_lt h.pos s.F[rs1].toNat
  exact ⟨_, _, exec_finv_ok hv hlt h0, finish_ok s rd (lt_word hy), hy, montInv_mul_mod h (cast_ne_zero_of_lt h0 hlt)⟩

/-- Settles O23: a nonzero divisor passes FDIV's checks for every dividend, and cancels from the product. -/
theorem fdivWritesTheQuotient : Obligations.FdivWritesTheQuotient := by
  intro f rd rs1 rs2 s hv1 hv2 h1 h2 h0
  have h := goodModulus f
  have hy := montDiv_lt h.pos s.F[rs1].toNat s.F[rs2].toNat
  exact ⟨_, _, exec_fdiv_ok hv1 hv2 h1 h2 h0, finish_ok s rd (lt_word hy), hy,
    montDiv_mul_mod h (cast_ne_zero_of_lt h0 h2) _⟩

/-! ## The two inverters (43_inverse_div R103) -/

section Inverters
variable {p : Nat} (h : GoodModulus p)
include h

/-- A Montgomery product represents the product of the standard values (42_montgomery R93). -/
theorem val_montMul (a b : Nat) : val p (montMul p a b) = val p a * val p b % p := by
  apply eq_of_cast_eq (val_lt h.pos _) (Nat.mod_lt _ h.pos)
  rw [cast_val h, cast_montMul h, ZMod.natCast_mod, Nat.cast_mul, cast_val h, cast_val h]
  ring

/-- The chain of Montgomery products represents the same chain of products of standard values. -/
theorem val_montExp (n a e : Nat) : val p (montExp p n a e) = powMod p n (val p a) e := by
  induction n generalizing a e with
  | zero => exact (val_one h).trans (Nat.mod_eq_of_lt h.prime.one_lt).symm
  | succ n ih =>
    simp only [montExp, powMod]
    split
    · rw [val_montMul h, ih, val_montMul h]
    · rw [ih, val_montMul h]

theorem montExp_lt (n a e : Nat) : montExp p n a e < p := by
  induction n generalizing a e with
  | zero => exact Nat.mod_lt _ h.pos
  | succ n ih =>
    rw [montExp]
    split
    · exact montMul_lt h.pos _ _
    · exact ih _ _

theorem fermatInverter_eq_mont (a : Nat) : fermatInverter p a = mont p (invMod p (val p a)) := by
  rw [invMod, ← val_montExp h, mont_val h (montExp_lt h _ _ _), fermatInverter]

theorem fermatInverter_eq_montInv (a : Nat) : fermatInverter p a = montInv p a := by
  have : Fact p.Prime := ⟨h.prime⟩
  rw [fermatInverter_eq_mont h]
  apply eq_of_cast_eq (mont_lt h.pos _) (montInv_lt h.pos a)
  rw [cast_mont, cast_invMod h, cast_val h, cast_montInv h, mul_inv, inv_inv]
  ring

/-- Bézout's coefficient of a felt is its inverse in the field, since the felt is coprime to P. -/
theorem cast_gcdA {a : Nat} (h0 : a ≠ 0) (ha : a < p) : ((Int.gcdA a p : Int) : ZMod p) = (a : ZMod p)⁻¹ := by
  have : Fact p.Prime := ⟨h.prime⟩
  have hgcd : Int.gcd a p = 1 := (Nat.coprime_of_lt_prime h0 ha h.prime).symm
  have hbezout := congrArg (Int.cast : Int → ZMod p) (Int.gcd_eq_gcd_ab a p)
  rw [hgcd] at hbezout
  push_cast at hbezout
  rw [ZMod.natCast_self, zero_mul, add_zero] at hbezout
  exact eq_inv_of_mul_eq_one_right hbezout.symm

theorem euclidInverter_eq_montInv {a : Nat} (h0 : a ≠ 0) (ha : a < p) : euclidInverter p a = montInv p a := by
  have hcoeff : ((Int.gcdA a p % p).toNat : Int) = Int.gcdA a p % p :=
    Int.toNat_of_nonneg (Int.emod_nonneg _ (Int.natCast_ne_zero.2 h.pos.ne'))
  have hcast : (((Int.gcdA a p % p).toNat : Nat) : ZMod p) = (a : ZMod p)⁻¹ := by
    rw [← Int.cast_natCast, hcoeff, ZMod.intCast_mod, cast_gcdA h h0 ha]
  apply eq_of_cast_eq (Nat.mod_lt _ h.pos) (montInv_lt h.pos a)
  rw [cast_montInv h, ZMod.natCast_mod, Nat.cast_mul, Nat.cast_pow, hcast]

end Inverters

/-- Settles O50: each inverter gives the residue of the inverse. -/
theorem invertersAgree : Obligations.InvertersAgree := by
  intro f a b _ h0 hb
  have h := goodModulus f
  exact ⟨fermatInverter_eq_montInv h b, euclidInverter_eq_montInv h h0.ne' hb, montDiv_eq_montMul_montInv h a b⟩

end Sys2Proof.Proofs

namespace Sys2Proof.Proofs

open Sys2Proof.Machine Sys2Proof.Laws

/-! ## The Poseidon commands on standard values (44_poseidon R109 to R121) -/

/-- Settles O24: the residue of a round constant is added to a residue. -/
theorem parcAddsRoundConstants : Obligations.ParcAddsRoundConstants := by
  intro base r s h hr
  have hlt := arcLayer_lt Config.rc r.toNat (s.triple base)
  exact ⟨_, _, exec_parc_ok h hr, finishTriple_felt h hlt, hlt, val_arcLayer _ _ _⟩

/-- Settles O25: the S-box set of the round selects the elements that are cubed. -/
theorem psboxCubesTheDesignatedElements : Obligations.PsboxCubesTheDesignatedElements := by
  intro base r s h hr
  have hlt : ∀ i, tripleGet (sboxLayer r.toNat (s.triple base)) i < Config.pStark :=
    fun i => sboxLayer_lt _ _ i (triple_felt h.felt i)
  refine ⟨_, _, exec_psbox_ok h hr, finishTriple_felt h hlt, fun i => ⟨hlt i, ?_⟩⟩
  rw [sboxLayer, tripleGet_tripleOf]
  split
  · next hc => rw [if_pos ((inSbox_iff _ _).2 hc), val_cube]
  · next hc => rw [if_neg (mt (inSbox_iff _ _).1 hc)]

/-- Settles O27: each of the three layers of a round commutes with taking standard values. -/
theorem prndRunsOneRound : Obligations.PrndRunsOneRound := by
  intro base r s h hr
  have hlt : ∀ i, tripleGet (poseidonRound Config.rc r.toNat (s.triple base)) i < Config.pStark :=
    mixLayer_lt _ _
  exact ⟨_, _, exec_prnd_ok h hr, finishTriple_felt h hlt, hlt, val_poseidonRound _ _ _⟩

/-- Settles O28: every round commutes with taking standard values, so all 91 in order do. -/
theorem ppermRunsThePermutation : Obligations.PpermRunsThePermutation := by
  intro base s h
  have hlt : ∀ i, tripleGet (poseidonPerm Config.rc (s.triple base)) i < Config.pStark :=
    poseidonRounds_lt _ _ _ (triple_felt h.felt)
  exact ⟨_, _, exec_pperm_ok h, finishTriple_felt h hlt, hlt, val_poseidonRounds _ _ _⟩

/-! ## The mixing layer of the default matrix (44_poseidon R117, R118) -/

/-- A residue P − k of the default matrix stands for −k (10_state R31). -/
theorem cast_modulus_sub {p k : Nat} (hk : k ≤ p) : ((p - k : Nat) : ZMod p) = -(k : ZMod p) := by
  rw [Nat.cast_sub hk, ZMod.natCast_self, zero_sub]

/-- The mixing layer of the default matrix, in the field. -/
theorem cast_mixLayer_mds (s : Triple) :
    (((mixLayer Config.mds s).e0 : Nat) : ZMod Config.pStark) = 3 * s.e0 + s.e1 + s.e2 ∧
    (((mixLayer Config.mds s).e1 : Nat) : ZMod Config.pStark) = s.e0 - s.e1 + s.e2 ∧
    (((mixLayer Config.mds s).e2 : Nat) : ZMod Config.pStark) = s.e0 + s.e1 - 2 * s.e2 := by
  simp only [mixLayer, tripleOf, cast_mixRow, Config.mds, cast_modulus_sub goodModulus_stark.lower.le,
    cast_modulus_sub goodModulus_stark.pos, Nat.cast_one, Nat.cast_ofNat]
  exact ⟨by ring, by ring, by ring⟩

theorem elements_lt {s : Triple} (h : ∀ i, tripleGet s i < Config.pStark) :
    s.e0 < Config.pStark ∧ s.e1 < Config.pStark ∧ s.e2 < Config.pStark := ⟨h 0, h 1, h 2⟩

theorem triple_ext {s t : Triple} (h0 : s.e0 = t.e0) (h1 : s.e1 = t.e1) (h2 : s.e2 = t.e2) : s = t := by
  rw [← tripleOf_tripleGet s, ← tripleOf_tripleGet t]
  simp only [tripleOf, tripleGet, h0, h1, h2]

/-- Below P, what equals an integer in the field is that integer's least non-negative residue. -/
theorem eq_emod_of_cast_eq {p a : Nat} {z : Int} (ha : a < p) (h : (a : ZMod p) = (z : ZMod p)) : (a : Int) = z % p := by
  have hmod : (a : Int) % p = z % p := (ZMod.intCast_eq_intCast_iff _ _ _).1 (by rwa [Int.cast_natCast])
  rwa [Int.emod_eq_of_lt (Int.natCast_nonneg a) (Int.ofNat_lt.2 ha)] at hmod

/-- Settles O26, row by row in the field. -/
theorem pmdsMultipliesByTheMatrix : Obligations.PmdsMultipliesByTheMatrix := by
  intro base s h
  have hlt := mixLayer_lt Config.mds (s.triple base)
  obtain ⟨hlt0, hlt1, hlt2⟩ := elements_lt hlt
  obtain ⟨row0, row1, row2⟩ := cast_mixLayer_mds (s.triple base)
  exact ⟨_, _, exec_pmds_ok h, finishTriple_felt h hlt, eq_emod_of_cast_eq hlt0 (row0.trans (by simp)),
    eq_emod_of_cast_eq hlt1 (row1.trans (by simp)), eq_emod_of_cast_eq hlt2 (row2.trans (by simp))⟩

/-- Settles O51: each row of sums and differences is the row of products, in the field. -/
theorem mixNeedsNoMultiplier : Obligations.MixNeedsNoMultiplier := by
  intro s hs
  have hpos := goodModulus_stark.pos
  obtain ⟨-, h1, -⟩ := elements_lt hs
  obtain ⟨hlt0, hlt1, hlt2⟩ := elements_lt (mixLayer_lt Config.mds s)
  obtain ⟨row0, row1, row2⟩ := cast_mixLayer_mds s
  refine triple_ext (eq_of_cast_eq (addMod_lt hpos _ _) hlt0 ?_) (eq_of_cast_eq (addMod_lt hpos _ _) hlt1 ?_)
    (eq_of_cast_eq (subMod_lt hpos _ _) hlt2 ?_)
  · simp only [row0, mixPath, cast_addMod]; ring
  · simp only [row1, mixPath, cast_addMod, cast_subMod _ h1.le]
  · simp only [row2, mixPath, cast_addMod, cast_subMod _ (addMod_lt hpos s.e2 s.e2).le]; ring

/-! ## Runs of Poseidon commands on one triple (44_poseidon R120, R122) -/

section Runs
variable {base : Reg} {s t u : State}

/-- A command that was run on with, completed with OK. -/
theorem status_of_runOk {i : Instr} {is : List Instr} (he : exec i s = .next t) (h : runOk (i :: is) s = some u) :
    t.rspStatus = 0 := by
  rw [runOk, he] at h
  by_contra h0
  exact absurd (h.symm.trans (if_neg h0)) (Option.some_ne_none u)

theorem runOk_append {is : List Instr} (h : runOk is s = some t) (js : List Instr) :
    runOk (is ++ js) s = runOk js t := by
  induction is generalizing s with
  | nil =>
    obtain rfl : s = t := Option.some.inj h
    rfl
  | cons i is ih =>
    obtain ⟨v, he, -⟩ := exec_ends i s
    have h0 := status_of_runOk he h
    rw [List.cons_append, runOk_cons he h0, ih ((runOk_cons he h0 is).symm.trans h)]

/-- A Poseidon command completes with OK only on a triple that is ready and, where it has a round, on a round that exists. -/
theorem ready_of_finishTriple {ok : Bool} {y : Triple}
    (h : (s.finishTriple (s.checkTriple base ok) base y).rspStatus = 0) : ok = true ∧ TripleReady s base := by
  rw [← checkTriple_eq_ok_iff]
  by_contra hne
  exact not_ok_of_failed (fun hc => hne (code_inj hc)) (finishTriple_error s hne base y) h

/-- One command that writes felts to a ready triple, as a run. -/
theorem runOk_writesTriple {i : Instr} {y : Triple} (h : TripleReady s base) (hy : ∀ k, tripleGet y k < Config.pStark)
    (he : exec i s = .next (s.finishTriple .ok base y)) :
    ∃ t, runOk [i] s = some t ∧ WroteTriple s t base y ∧ TripleReady t base :=
  have hw := finishTriple_felt h hy
  ⟨_, runOk_cons he hw.ended.rspStatus [], hw, wroteTriple_ready h.fits hw hy⟩

theorem runOk_prnd {r : BitVec 8} (h : TripleReady s base) (hr : r.toNat < Config.nRounds) :
    ∃ t, runOk [.prnd base r] s = some t ∧ WroteTriple s t base (poseidonRound Config.rc r.toNat (s.triple base)) ∧
      TripleReady t base :=
  runOk_writesTriple h (mixLayer_lt _ _) (exec_prnd_ok h hr)

theorem runOk_layers {r : BitVec 8} (h : TripleReady s base) (hr : r.toNat < Config.nRounds) :
    ∃ t, runOk [.parc base r, .psbox base r, .pmds base] s = some t ∧
      WroteTriple s t base (poseidonRound Config.rc r.toNat (s.triple base)) := by
  obtain ⟨t, ht, hwt, hrt⟩ := runOk_writesTriple h (arcLayer_lt _ _ _) (exec_parc_ok h hr)
  obtain ⟨u, hu, hwu, hru⟩ :=
    runOk_writesTriple hrt (fun k => sboxLayer_lt _ _ k (triple_felt hrt.felt k)) (exec_psbox_ok hrt hr)
  obtain ⟨v, hv, hwv, -⟩ := runOk_writesTriple hru (mixLayer_lt _ _) (exec_pmds_ok hru)
  refine ⟨v, ((runOk_append ht _).trans (runOk_append hu _)).trans hv, ?_⟩
  rw [poseidonRound, ← wroteTriple_triple hwt, ← wroteTriple_triple hwu]
  exact wroteTriple_trans hwt (wroteTriple_trans hwu hwv)

/-- The PRND commands of rounds 0 .. n leave what those rounds make of the triple. -/
theorem runOk_prnd_range (h : TripleReady s base) (n : Nat) (hn : n < Config.nRounds) :
    ∃ t, runOk ((List.range (n + 1)).map fun r => .prnd base (BitVec.ofNat 8 r)) s = some t ∧
      WroteTriple s t base (poseidonRounds Config.rc (n + 1) (s.triple base)) ∧ TripleReady t base := by
  induction n with
  | zero => exact runOk_prnd h hn
  | succ n ih =>
    have hr : (BitVec.ofNat 8 (n + 1)).toNat = n + 1 := Nat.mod_eq_of_lt (hn.trans (by decide))
    obtain ⟨t, ht, hwt, hrt⟩ := ih (Nat.lt_of_succ_lt hn)
    obtain ⟨u, hu, hwu, hru⟩ := runOk_prnd hrt (hr ▸ hn)
    rw [hr, wroteTriple_triple hwt] at hwu
    refine ⟨u, ?_, wroteTriple_trans hwt hwu, hru⟩
    rw [List.range_succ, List.map_append, runOk_append ht]
    exact hu

end Runs

/-- Settles O57: PARC completes only on a ready triple, where the layers in sequence and PRND write the same triple. -/
theorem roundIsItsThreeLayers : Obligations.RoundIsItsThreeLayers := by
  intro base r s u h
  obtain ⟨hok, hs⟩ := ready_of_finishTriple (status_of_runOk (i := .parc base r) rfl h)
  have hr := roundFits_eq_true.1 hok
  obtain ⟨v, hv, hwv⟩ := runOk_layers hs hr
  obtain rfl : v = u := Option.some.inj (hv.symm.trans h)
  have hw := finishTriple_felt hs (mixLayer_lt Config.mds (sboxLayer r.toNat (arcLayer Config.rc r.toNat (s.triple base))))
  exact ⟨_, exec_prnd_ok hs hr, hw.ended.rspStatus, wroteTriple_unique hw hwv⟩

/-- Settles O58: the first PRND completes only on a ready triple, where the rounds in sequence and PPERM write the same
triple. -/
theorem permutationIsItsRounds : Obligations.PermutationIsItsRounds := by
  intro base s u h
  obtain ⟨-, hs⟩ := ready_of_finishTriple (status_of_runOk (i := .prnd base 0) rfl h)
  obtain ⟨v, hv, hwv, -⟩ := runOk_prnd_range hs 90 (by decide)
  obtain rfl : v = u := Option.some.inj (hv.symm.trans h)
  have hw := finishTriple_felt hs (poseidonRounds_lt Config.rc Config.nRounds _ (triple_felt hs.felt))
  exact ⟨_, exec_pperm_ok hs, hw.ended.rspStatus, wroteTriple_unique hw hwv⟩

/-! ## The permutation is a bijection (44_poseidon R123) -/

/-- The triples of felts of the STARK field. -/
def feltTriples : Set Triple := {s | ∀ i, tripleGet s i < Config.pStark}

theorem tripleGet_injective : Function.Injective tripleGet :=
  Function.LeftInverse.injective tripleOf_tripleGet

theorem finite_feltTriples : feltTriples.Finite :=
  (Set.Finite.pi' fun _ => Set.finite_lt_nat Config.pStark).preimage tripleGet_injective.injOn

/-- There are finitely many triples of felts, so a layer that keeps them and merges no two of them is a bijection. -/
theorem bijOn_feltTriples {g : Triple → Triple} (hlt : ∀ s ∈ feltTriples, ∀ i, tripleGet (g s) i < Config.pStark)
    (hinj : Set.InjOn g feltTriples) : Set.BijOn g feltTriples feltTriples :=
  (finite_feltTriples.injOn_iff_bijOn_of_mapsTo hlt).1 hinj

/-- A layer that works on each element apart merges no two triples when it merges no two felts of any element. -/
theorem injOn_elementwise {f : Fin 3 → Nat → Nat} (hf : ∀ i, Set.InjOn (f i) {x | x < Config.pStark}) :
    Set.InjOn (fun s => tripleOf fun i => f i (tripleGet s i)) feltTriples := by
  intro s hs t ht h
  refine tripleGet_injective (funext fun i => hf i (hs i) (ht i) ?_)
  simpa only [tripleGet_tripleOf] using congrArg (tripleGet · i) h

/-- A function whose value determines its argument in the field is one to one on felts. -/
theorem injOn_felts_of_cast {f : Nat → Nat}
    (hf : ∀ x y, f x = f y → (x : ZMod Config.pStark) = (y : ZMod Config.pStark)) :
    Set.InjOn f {x | x < Config.pStark} :=
  fun x hx y hy h => eq_of_cast_eq hx hy (hf x y h)

theorem bijOn_arcLayer (rc : Nat → Fin 3 → Nat) (r : Nat) : Set.BijOn (arcLayer rc r) feltTriples feltTriples := by
  refine bijOn_feltTriples (fun s _ => arcLayer_lt rc r s)
    (injOn_elementwise (f := fun i x => addMod Config.pStark x (mont Config.pStark (rc r i)))
      fun i => injOn_felts_of_cast fun x y h => ?_)
  have hcast := congrArg (Nat.cast : Nat → ZMod Config.pStark) h
  rwa [cast_addMod, cast_addMod, add_left_inj] at hcast

/-- 3 divides 2p − 1, and every element is its own power of that exponent, so cubing has an inverse. -/
theorem pow_three_injective {p : Nat} [Fact p.Prime] (h3 : p % 3 = 2) : Function.Injective fun x : ZMod p => x ^ 3 := by
  have hroot : ∀ x : ZMod p, (x ^ 3) ^ ((2 * p - 1) / 3) = x := fun x => by
    rw [← pow_mul, show 3 * ((2 * p - 1) / 3) = p + (p - 1) by omega, pow_add, ZMod.pow_card, ← pow_succ',
      show p - 1 + 1 = p by omega, ZMod.pow_card]
  exact Function.LeftInverse.injective hroot

theorem cast_cube (x : Nat) : ((cube x : Nat) : ZMod Config.pStark) =
    (x : ZMod Config.pStark) ^ 3 * (((Config.radix : Nat) : ZMod Config.pStark)⁻¹) ^ 2 := by
  rw [cube, cast_montMul goodModulus_stark, cast_montMul goodModulus_stark]; ring

/-- The cube is one to one on felts, because 3 is coprime to P − 1 (44_poseidon R111). -/
theorem cast_eq_of_cube_eq {x y : Nat} (h : cube x = cube y) : (x : ZMod Config.pStark) = (y : ZMod Config.pStark) := by
  have := fact_stark
  have hcast := congrArg (Nat.cast : Nat → ZMod Config.pStark) h
  rw [cast_cube, cast_cube] at hcast
  exact pow_three_injective (by decide)
    (mul_right_cancel₀ (pow_ne_zero 2 (inv_ne_zero (radix_ne_zero goodModulus_stark))) hcast)

theorem bijOn_sboxLayer (r : Nat) : Set.BijOn (sboxLayer r) feltTriples feltTriples := by
  refine bijOn_feltTriples (fun s hs i => sboxLayer_lt r s i (hs i))
    (injOn_elementwise (f := fun i x => if inSbox r i then cube x else x) fun i => ?_)
  split
  · exact injOn_felts_of_cast fun _ _ => cast_eq_of_cube_eq
  · exact Set.injOn_id _

theorem eight_ne_zero_stark : (8 : ZMod Config.pStark) ≠ 0 :=
  cast_ne_zero_of_lt (b := 8) (by decide) (by decide)

/-- The default matrix has determinant 8, and the rows of its adjugate give 8 times each element back (44_poseidon R117). -/
theorem bijOn_mixLayer : Set.BijOn (mixLayer Config.mds) feltTriples feltTriples := by
  have := fact_stark
  refine bijOn_feltTriples (fun s _ => mixLayer_lt _ s) fun s hs t ht h => ?_
  obtain ⟨s0, s1, s2⟩ := cast_mixLayer_mds s
  obtain ⟨t0, t1, t2⟩ := cast_mixLayer_mds t
  rw [h] at s0 s1 s2
  have h0 := s0.symm.trans t0
  have h1 := s1.symm.trans t1
  have h2 := s2.symm.trans t2
  obtain ⟨hs0, hs1, hs2⟩ := elements_lt hs
  obtain ⟨ht0, ht1, ht2⟩ := elements_lt ht
  refine triple_ext (eq_of_cast_eq hs0 ht0 (mul_left_cancel₀ eight_ne_zero_stark ?_))
    (eq_of_cast_eq hs1 ht1 (mul_left_cancel₀ eight_ne_zero_stark ?_))
    (eq_of_cast_eq hs2 ht2 (mul_left_cancel₀ eight_ne_zero_stark ?_))
  · linear_combination h0 + 3 * h1 + 2 * h2
  · linear_combination 3 * h0 - 7 * h1 - 2 * h2
  · linear_combination 2 * h0 - 2 * h1 - 4 * h2

theorem bijOn_poseidonRounds (rc : Nat → Fin 3 → Nat) (n : Nat) :
    Set.BijOn (poseidonRounds rc n) feltTriples feltTriples := by
  induction n with
  | zero => exact Set.bijOn_id _
  | succ n ih => exact ((bijOn_mixLayer.comp (bijOn_sboxLayer n)).comp (bijOn_arcLayer rc n)).comp ih

/-- Settles O59: every round is composed of three bijections, and the permutation of 91 rounds. -/
theorem permutationIsABijection : Obligations.PermutationIsABijection :=
  fun rc => bijOn_poseidonRounds rc Config.nRounds

end Sys2Proof.Proofs

namespace Sys2Proof.Proofs

open Sys2Proof.Machine Sys2Proof.Laws

/-! ## Every step answers (60_exceptions R132, R142) -/

/-- Settles O12, by the kinds of edge: a reset, a completion, and the ports alone each give a next state. -/
theorem everyStepAnswers : Obligations.EveryStepAnswers := step_answers

/-! ## A command that passes its checks (60_exceptions R126, R141) -/

/-- Settles O32, by the ways a command can end: each of the four errors is a check that failed, and none of them did. -/
theorem checkedCommandCompletesOk : Obligations.CheckedCommandCompletesOk := by
  intro i s hw hv hr hz
  obtain ⟨t, ht, hends⟩ := exec_ends i s
  refine ⟨t, ht, ?_⟩
  cases hends with
  | illegal hw' => exact absurd (hw.symm.trans hw') (by decide)
  | uninit _ hv' => exact absurd hv hv'
  | range _ _ hr' => exact absurd hr hr'
  | div0 _ _ _ hz' => exact absurd hz' hz
  | wrote _ _ _ _ _ _ _ h | wroteTriple _ _ _ _ _ _ _ h | answered _ _ _ _ _ _ _ _ h => exact h.ended.rspStatus

/-! ## A quiet edge (60_exceptions R140, 70_reset R155) -/

/-- At a quiet edge nothing is presented and nothing is taken. -/
theorem portEdge_quiet (s : State) : s.portEdge Edge.quiet = s := by
  simp [State.portEdge, Edge.quiet]

theorem dropEdge_of_edges_nil {s : State} (h : s.edges = []) : s.dropEdge = s := by
  rw [State.dropEdge, h, List.tail_nil, ← h]

/-- Settles O9: the next edge is quiet, there is none to take off the list, and with nothing in flight only the ports could
act. -/
theorem nothingHappensWithoutTheHost : Obligations.NothingHappensWithoutTheHost := by
  intro s hes hb
  rw [step, nextEdge_quiet hes, dropEdge_of_edges_nil hes, edgeStep_idle hb rfl, portEdge_quiet]

end Sys2Proof.Proofs

namespace Sys2Proof.Proofs

open Sys2Proof.Machine Sys2Proof.Laws

/-! ## A reset edge (70_reset R143 to R145, R156) -/

theorem edgeStep_reset {s : State} {e : Edge} (h : e.rst = true) : edgeStep e s = .next s.resetEdge := by
  rw [edgeStep, if_pos h]

theorem cmdReady_in_reset (s : State) : s.cmdReady true = false := by
  rw [State.cmdReady, Bool.not_true, Bool.and_false]

theorem cmdReady_of_idle {s : State} (hb : s.busy = false) (hr : s.rspValid = false) : s.cmdReady false = true := by
  simp [State.cmdReady, hb, hr]

theorem valid_resetEdge (s : State) (j : Reg) : s.resetEdge.V[j] = false := by
  rw [resetEdge_V]
  exact Vector.getElem_replicate j.isLt

/-- Settles O6: an edge with rst = 1 is `State.resetEdge` whatever the other pins are, and it leaves an idle block. -/
theorem resetEdgeClears : Obligations.ResetEdgeClears := by
  intro s e hrst
  refine ⟨hrst ▸ cmdReady_in_reset s, s.resetEdge, edgeStep_reset hrst, valid_resetEdge s, ?_⟩
  exact ⟨resetEdge_busy s, resetEdge_rspValid s, resetEdge_rspStatus s, resetEdge_rspData s, resetEdge_edges s,
    cmdReady_of_idle (resetEdge_busy s) (resetEdge_rspValid s)⟩

end Sys2Proof.Proofs
